-- ==== Sys2Proof/Word.lean ====
section
/-! DEFINITION. The word types of `CORE`: every value is an unsigned bit vector of a stated width
(00_scope.md R16), and the operators of R17 are `BitVec`'s own (`<<<` and `>>>` by the width or more
give 0, `>>>` is logical). -/

namespace Sys2Proof

/-- The unit of the buffer and of the CRC input (R9, R50): 8 bits. -/
abbrev Byte := BitVec 8

/-- An operand, result or status register, and a value on the register port (R13, R20): 64 bits. -/
abbrev Word := BitVec 64

/-- A command word (R80): 32 bits. A register number on the register port has the same width (R170). -/
abbrev CmdWord := BitVec 32

end Sys2Proof
end

