-- ==== Sys2Proof/Config.lean ====
section
/-! DEFINITION. What an instance fixes when it is built (00_scope.md R8, R11, R13), and the free values of the
spec (10_state.md R31, R32; 93_implementation_defined.md U8). -/

namespace Sys2Proof

/-- The legal values of the elaboration parameter `W` (R8): 8, 16, 32 and 64. -/
inductive Width where
  | w8
  | w16
  | w32
  | w64
  deriving DecidableEq, Repr

/-- `W` in bits (R8). -/
abbrev Width.bits : Width → Nat
  | .w8 => 8
  | .w16 => 16
  | .w32 => 32
  | .w64 => 64

/-- The legal values of the elaboration parameter `ENDIAN` (R11): there is one, so an instance with another
value cannot be written down (assumption log 14). -/
inductive Endian where
  | little
  deriving DecidableEq, Repr

/-- The byte order of every instance (R11). -/
def Config.endian : Endian := .little

/-- The `W` of the instance whose reset state is `State.reset`. DESIGN CHOICE (assumption log 1): the spec fixes no
one width, and `resetFor` gives the reset state of each. -/
def Config.width : Width := .w32

/-- How many byte indices the buffer space has (R30, R50): `BUFLEN` is at most 2^64-1, so the indices that can be
legal are 0 .. 2^64-2. -/
def Config.bufferSpace : Nat := 2 ^ 64 - 1

/-- The free values of the spec: what a read of `CRC_POLY` or of a table entry returns while no table is built
(R31, R32, R170, U8: "any value", "a draw at each read"). Draw number `n` is `freeValue n`; nothing constrains it
(assumption log 5). -/
opaque Config.freeValue : Nat → Word

end Sys2Proof
end

