-- ==== Sys2Proof/Syntax.lean ====
section
/-! DEFINITION. The instructions of `CORE` (30_encoding.md R84), the register names of its port (10_state.md R20),
what a host and its platform can do to it (00_scope.md R14, R15; 42_system.md R170 to R173; 70 R220; 20_memory.md R52,
R67, R70), and the assembler's lines and pseudo-instructions (R87, R88). -/

namespace Sys2Proof

/-- The result type's width in `BF.GET` (R83): the assembler's suffixes `.b .h .w .d` for 8, 16, 32 and 64 bits. -/
inductive ResultWidth where
  | b
  | h
  | w
  | d
  deriving DecidableEq, Repr

/-- The instructions: one constructor per row of the opcode map (R84). -/
inductive Instr where
  /-- `CRC.BUILD` (R107) -/
  | crcBuild
  /-- `CRC.CMPB` (R111) -/
  | crcCmpb
  /-- `CRC.CMPI imm8` (R114) -/
  | crcCmpi (imm8 : Byte)
  /-- `BF.SET` (R144) -/
  | bfSet
  /-- `BF.GET tw` (R150) -/
  | bfGet (tw : ResultWidth)
  deriving DecidableEq, Repr

/-- Why a command word is illegal (R85): all five reasons raise the same cause. -/
inductive Illegal where
  /-- the opcode value is none of the five -/
  | opcode
  /-- bits 31:24 are not 0 -/
  | rsv1
  /-- bits 15:10 are not 0 -/
  | rsv0
  /-- a non-zero `imm8` with an opcode other than 0x03 -/
  | imm8
  /-- a non-zero `tw` with an opcode other than 0x11 -/
  | tw
  deriving DecidableEq, Repr

/-- The registers of the register port by name (R20). -/
inductive Reg where
  | arg0
  | arg1
  | arg2
  | res
  | status
  | finfo
  | buflen
  | crcPoly
  | config
  | crcTable (i : Fin 256)
  deriving DecidableEq, Repr

/-- The direction of an access to the buffer. -/
inductive AccessKind where
  | read
  | write
  deriving DecidableEq, Repr

/-- One access of another master to a byte of the buffer while a command of `CORE` runs (R66, R67); `value` is what
a write stores. -/
structure ForeignAccess where
  kind : AccessKind
  addr : Nat
  value : Byte
  deriving DecidableEq, Repr

/-- What a host writes to a register: a value, or the value its last read returned (`mv ARG0, RES`, R88, R176). -/
inductive WriteSource where
  | value (v : Word)
  | lastRead
  deriving DecidableEq, Repr

/-- What the host and its platform can do next (R14, R15, R52, R70). -/
inductive Action where
  /-- `RegRead(n)` (R170) -/
  | regRead (n : CmdWord)
  /-- `RegWrite(n, v)` (R171) -/
  | regWrite (n : CmdWord) (src : WriteSource)
  /-- `CmdIssue(c)` (R173), and what other masters do to the buffer while the command runs (R67) -/
  | command (c : CmdWord) (during : List ForeignAccess)
  /-- reset (R220) -/
  | reset
  /-- the host reads a byte of the buffer directly, between two operations (R70) -/
  | bufRead (a : Nat)
  /-- the host or another master writes a byte of the buffer directly, between two operations (R70) -/
  | bufWrite (a : Nat) (v : Byte)
  /-- the platform binds another buffer, whose bytes are `image` (R52) -/
  | bind (image : List Byte)
  deriving DecidableEq, Repr

/-- A line of the assembler (R87); `wrRead` is the second line of `mv` (R88). The numbers are as written: whether
they fit is `AsmLine.wf`. -/
inductive AsmLine where
  | reset
  | wr (r : Reg) (v : Nat)
  | wrRead (r : Reg)
  | rd (r : Reg)
  | crcBuild
  | crcCmpb
  | crcCmpi (imm8 : Nat)
  | bfSet
  | bfGet (tw : ResultWidth)
  | word (v : Nat)
  deriving DecidableEq, Repr

/-- The pseudo-instructions (R88). An `Option` is the optional initial remainder. -/
inductive Pseudo where
  | buildTable (poly : Nat)
  | compute (base len : Nat) (init : Option Nat)
  | mvArg0Res
  | computeSeq (bytes : List Nat) (init : Option Nat)
  | setBits (value off len : Nat)
  | getBits (tw : ResultWidth) (off len : Nat)
  deriving DecidableEq, Repr

end Sys2Proof
end

