-- ==== Sys2Proof/WellFormed.lean ====
section
/-! DEFINITION. Which terms are well formed. An `Instr` is well formed by its type: its fields have the widths of
the encoding (30_encoding.md R82, R83), so every statement about instructions is about all of them. The checks are on the
assembler's numbers (R87), which are written without a width. -/

namespace Sys2Proof

/-- The numbers of a line fit: a register value has 64 bits (R20), `imm8` 8 bits (R82), a command word 32 bits (R80). -/
def AsmLine.wf : AsmLine → Bool
  | .reset | .wrRead _ | .rd _ | .crcBuild | .crcCmpb | .bfSet | .bfGet _ => true
  | .wr _ v => decide (v < 2 ^ 64)
  | .crcCmpi imm8 => decide (imm8 < 2 ^ 8)
  | .word v => decide (v < 2 ^ 32)

/-- A pseudo-instruction is well formed when its numbers fit the lines it expands to (R88). -/
def Pseudo.wf : Pseudo → Bool
  | .buildTable p => decide (p < 2 ^ 64)
  | .compute base len init => decide (base < 2 ^ 64) && decide (len < 2 ^ 64) && decide (init.getD 0 < 2 ^ 64)
  | .mvArg0Res => true
  | .computeSeq bytes init => bytes.all (fun b => decide (b < 2 ^ 8)) && decide (init.getD 0 < 2 ^ 64)
  | .setBits v off len => decide (v < 2 ^ 64) && decide (off < 2 ^ 64) && decide (len < 2 ^ 64)
  | .getBits _ off len => decide (off < 2 ^ 64) && decide (len < 2 ^ 64)

end Sys2Proof
end

