-- ==== Sys2Proof/Decode.lean ====
section
/-! DEFINITION. The opcode map and decoding (30_encoding.md R80 to R86), the encoder, the numbers of the registers
(10_state.md R20), and the assembler's words and expansions (R87, R88). -/

namespace Sys2Proof

/-! ## Operand codes -/

/-- The field `tw` of a result width (R83). -/
def ResultWidth.code : ResultWidth → BitVec 2
  | .b => 0
  | .h => 1
  | .w => 2
  | .d => 3

/-- The result width of a field `tw` (R83). -/
def ResultWidth.ofCode (c : BitVec 2) : ResultWidth :=
  if c = 0 then .b else if c = 1 then .h else if c = 2 then .w else .d

/-- `TW`, the width in bits of the host's result type: `8 * 2^tw` (R83). -/
def ResultWidth.bits (t : ResultWidth) : Nat := 8 * 2 ^ t.code.toNat

/-! ## The fields of format C (R81) -/

/-- Bits 7:0. -/
def opcodeField (c : CmdWord) : Byte := c.extractLsb' 0 8
/-- Bits 9:8. -/
def twField (c : CmdWord) : BitVec 2 := c.extractLsb' 8 2
/-- Bits 15:10, reserved. -/
def rsv0Field (c : CmdWord) : BitVec 6 := c.extractLsb' 10 6
/-- Bits 23:16. -/
def imm8Field (c : CmdWord) : Byte := c.extractLsb' 16 8
/-- Bits 31:24, reserved. -/
def rsv1Field (c : CmdWord) : Byte := c.extractLsb' 24 8

/-! ## The opcode map (R84) -/

/-- A row of the opcode map: it selects the words `c` with `(c and mask) = pattern` (R84). -/
structure Row where
  mask : CmdWord
  pattern : CmdWord
  deriving DecidableEq, Repr

/-- "A word `c` selects the instruction of a row when `(c and mask) = match`" (R84). -/
def Row.selects (r : Row) (c : CmdWord) : Bool := c &&& r.mask == r.pattern

/-- Row `CRC.BUILD` -/
def rowCrcBuild : Row := { mask := 0xFFFFFFFF, pattern := 0x00000001 }
/-- Row `CRC.CMPB` -/
def rowCrcCmpb : Row := { mask := 0xFFFFFFFF, pattern := 0x00000002 }
/-- Row `CRC.CMPI` -/
def rowCrcCmpi : Row := { mask := 0xFF00FFFF, pattern := 0x00000003 }
/-- Row `BF.SET` -/
def rowBfSet : Row := { mask := 0xFFFFFFFF, pattern := 0x00000010 }
/-- Row `BF.GET` -/
def rowBfGet : Row := { mask := 0xFFFFFCFF, pattern := 0x00000011 }

/-- The five rows, in the table's order. -/
def opcodeMap : List Row := [rowCrcBuild, rowCrcCmpb, rowCrcCmpi, rowBfSet, rowBfGet]

/-- The row an instruction's words match. -/
def rowOf : Instr → Row
  | .crcBuild => rowCrcBuild
  | .crcCmpb => rowCrcCmpb
  | .crcCmpi _ => rowCrcCmpi
  | .bfSet => rowBfSet
  | .bfGet _ => rowBfGet

/-! ## Decoding (R85, R86) -/

/-- The name of what is wrong with a word that no row selects (R85), in the order R85 lists the reasons. -/
def illegalReason (c : CmdWord) : Illegal :=
  if ¬ (opcodeField c = 0x01 ∨ opcodeField c = 0x02 ∨ opcodeField c = 0x03 ∨ opcodeField c = 0x10 ∨ opcodeField c = 0x11) then
    .opcode
  else if rsv1Field c ≠ 0 then .rsv1
  else if rsv0Field c ≠ 0 then .rsv0
  else if opcodeField c ≠ 0x03 ∧ imm8Field c ≠ 0 then .imm8
  else .tw

/-- `Decode(c)` (R86): total on every 32-bit word. -/
def decode (c : CmdWord) : Except Illegal Instr :=
  if rowCrcBuild.selects c then .ok .crcBuild
  else if rowCrcCmpb.selects c then .ok .crcCmpb
  else if rowCrcCmpi.selects c then .ok (.crcCmpi (imm8Field c))
  else if rowBfSet.selects c then .ok .bfSet
  else if rowBfGet.selects c then .ok (.bfGet (ResultWidth.ofCode (twField c)))
  else .error (illegalReason c)

/-- The command word of an instruction (R81, R84, R87). -/
def encode : Instr → CmdWord
  | .crcBuild => 0x00000001
  | .crcCmpb => 0x00000002
  | .crcCmpi imm8 => 0x00000003 ||| (imm8.setWidth 32 <<< 16)
  | .bfSet => 0x00000010
  | .bfGet tw => 0x00000011 ||| (tw.code.setWidth 32 <<< 8)

/-- The host's entry to the decoder: the instruction of `w`'s low `nbits` bits, the bits above being 0. A command
word is handed over by value (R80), so no byte order enters. -/
def decodeTableWord (nbits w : Nat) : Option Instr :=
  match decode (BitVec.ofNat 32 (w % 2 ^ nbits)) with
  | .ok i => some i
  | .error _ => none

/-! ## Register numbers (R20) -/

/-- The number of a register (R20). -/
def Reg.number : Reg → CmdWord
  | .arg0 => 0
  | .arg1 => 1
  | .arg2 => 2
  | .res => 3
  | .status => 4
  | .finfo => 5
  | .buflen => 6
  | .crcPoly => 7
  | .config => 8
  | .crcTable i => BitVec.ofNat 32 (256 + i.val)

/-- The register of a number; "No other register number exists" (R20). -/
def Reg.ofNumber (n : CmdWord) : Option Reg :=
  if n = 0 then some .arg0
  else if n = 1 then some .arg1
  else if n = 2 then some .arg2
  else if n = 3 then some .res
  else if n = 4 then some .status
  else if n = 5 then some .finfo
  else if n = 6 then some .buflen
  else if n = 7 then some .crcPoly
  else if n = 8 then some .config
  else if h : 256 ≤ n.toNat ∧ n.toNat < 512 then some (.crcTable ⟨n.toNat - 256, by omega⟩)
  else none

/-! ## The assembler (R87, R88) -/

/-- The port operation of a line (R87); none for a line whose numbers do not fit. With one host, no other master
acts during a command. -/
def assemble (l : AsmLine) : Option Action :=
  if l.wf then
    match l with
    | .reset => some .reset
    | .wr r v => some (.regWrite r.number (.value (BitVec.ofNat 64 v)))
    | .wrRead r => some (.regWrite r.number .lastRead)
    | .rd r => some (.regRead r.number)
    | .crcBuild => some (.command (encode .crcBuild) [])
    | .crcCmpb => some (.command (encode .crcCmpb) [])
    | .crcCmpi imm8 => some (.command (encode (.crcCmpi (BitVec.ofNat 8 imm8))) [])
    | .bfSet => some (.command (encode .bfSet) [])
    | .bfGet tw => some (.command (encode (.bfGet tw)) [])
    | .word v => some (.command (BitVec.ofNat 32 v) [])
  else none

/-- The two lines of `mv ARG0, RES` (R88). -/
def mvLines : List AsmLine := [.rd .res, .wrRead .arg0]

/-- The lines a pseudo-instruction expands to (R88); the document's default initial remainder 0 exists only here
(R104). -/
def Pseudo.expand : Pseudo → List AsmLine
  | .buildTable p => [.wr .arg0 p, .crcBuild]
  | .compute base len init =>
    [.wr .arg0 (init.getD 0), .wr .arg1 base, .wr .arg2 len, .crcCmpb, .rd .res]
  | .mvArg0Res => mvLines
  | .computeSeq bytes init =>
    [.wr .arg0 (init.getD 0)] ++ bytes.flatMap (fun b => .crcCmpi b :: mvLines) ++
      (if bytes.isEmpty then [] else [.rd .res])
  | .setBits v off len => [.wr .arg0 v, .wr .arg1 off, .wr .arg2 len, .bfSet]
  | .getBits tw off len => [.wr .arg1 off, .wr .arg2 len, .bfGet tw, .rd .res]

/-- The port operations of a list of lines; none if one of them is ill formed. -/
def assembleAll (ls : List AsmLine) : Option (List Action) := ls.mapM assemble

end Sys2Proof
end

