-- ==== Sys2Proof/Machine/State.lean ====
section
/-! DEFINITION. The state of one instance of `CORE` with its buffer and its host (10_state.md R20 to R39), the causes of
the spec's faults (60_exceptions.md R190), and the two ways the model itself can stop. -/

namespace Sys2Proof.Machine

/-- The causes of a fault of `CORE` (R190). Raising one is a next state (`State.raise`), not a stop of the model. -/
inductive Cause where
  /-- 1: the word matches no row (R85) -/
  | illegalCommand
  /-- 2: `CRC.CMPB` or `CRC.CMPI` with `TV = 0` -/
  | tableNotBuilt
  /-- 3: `ARG0[63:W] != 0` in a CRC instruction (R110) -/
  | operandWidth
  /-- 4: `ARG2 > 64` in a bit-field instruction (R141) -/
  | lengthRange
  /-- 5: `ARG2 = 0` in a bit-field instruction (R141) -/
  | lengthZero
  /-- 6: `ARG2 > TW` in `BF.GET` (R152) -/
  | typeWidth
  /-- 7: the field or the byte range does not fit the buffer (R142, R111) -/
  | bufferOverrun
  /-- 8: a register number that may not be read or written (R172) -/
  | badRegister
  deriving DecidableEq, Repr

/-- How the model itself stops, where the spec gives an execution no meaning. No instruction's meaning answers one. -/
inductive Fault where
  /-- Raised by `platform` when another master's access during a command is a data race (20_memory.md R67: "A model
  treats a racing execution as having gone wrong"). Safe: the hardware goes on, the model stops. -/
  | dataRace
  /-- Raised by `runCommand` when an instruction is to run while `BUFLEN` is larger than the memory bound (70 R226 (a),
  93 U11: "the spec gives no move"), whatever bytes it would access. Safe: the hardware goes on, the model stops. -/
  | bufferNotBound
  /-- Raised by `platform` for another master's access during a command, and by the direct accesses, at an index the platform
  has not bound (70 R226: "the spec says nothing about the outcome"). Safe: the hardware goes on, the model stops. -/
  | unboundByte
  deriving DecidableEq, Repr

/-- Why the model would give an instruction no meaning. -/
inductive Refusal where
  /-- Raised by an arm of `exec` whose instruction has no meaning yet; no arm is left in that state. Safe. -/
  | notModelled (mnemonic : String)
  deriving DecidableEq, Repr

/-- The bytes of the buffer: (index, byte) pairs with rising indices, none equal to what an unlisted index reads as
(`Memory.wf`, `Memory.unlisted`). -/
abbrev Memory := List Host.Cell

/-- The registers the CRC unit owns (R31, R32), with the parameter `W` of the instance (R8), which gives them their
width. -/
structure CrcEngine where
  width : Width
  poly : BitVec width.bits
  table : Vector (BitVec width.bits) 256
  deriving DecidableEq, Repr

/-- An engine without a built table. The spec leaves the contents unspecified (R39); DESIGN CHOICE 0 (assumption log 4). -/
def CrcEngine.unbuilt (w : Width) : CrcEngine :=
  { width := w, poly := 0, table := Vector.replicate 256 0 }

/-- The fields of `STATUS` (R24). -/
structure Status where
  f : Bool
  tv : Bool
  cause : BitVec 4
  deriving DecidableEq, Repr

/-- One transfer on the memory port (R60): `len` single-byte accesses at `addr .. addr + len - 1`. -/
structure Transfer where
  kind : AccessKind
  addr : Nat
  len : Nat
  deriving DecidableEq, Repr

/-- The state. `crc` to `buflen` are the tuple of R36 with `W`; `mem` and `bound` are the platform's buffer (R35, R52);
`bus` is what `CORE` did on the memory port in the last port operation (R60, R62); `program`, `rdata` and `draws` are the
host's side (assumption logs 1, 2, 3, 5, 7 and 10). -/
structure State where
  crc : CrcEngine
  status : Status
  arg0 : Word
  arg1 : Word
  arg2 : Word
  res : Word
  finfo : Word
  buflen : Word
  mem : Memory
  bound : Nat
  bus : List Transfer
  program : List Action
  rdata : Word
  draws : Nat
  deriving DecidableEq, Repr

/-- The state of the instance of width `w` right after reset (R39, R220). The spec gives `arg0` to `buflen` and `status`;
`crc`'s registers, `mem`, `bound` and the last four fields hold values the assumption log names (4, 6, 10, 2, 3, 5, 7). -/
def resetFor (w : Width) : State :=
  { crc := CrcEngine.unbuilt w
    status := { f := false, tv := false, cause := 0 }
    arg0 := 0
    arg1 := 0
    arg2 := 0
    res := 0
    finfo := 0
    buflen := 0
    mem := []
    bound := Config.bufferSpace
    bus := []
    program := []
    rdata := 0
    draws := 0 }

/-- The state right after reset (R39) of the instance of width `Config.width` (assumption log 1). -/
def State.reset : State := resetFor Config.width

end Sys2Proof.Machine
end

