-- ==== Sys2Proof/Machine/Flags.lean ====
section
/-! DEFINITION. The status and configuration words (10_state.md R24 to R28, R33) and the cause codes (60 R190).
No instruction computes a carry, zero, overflow or sign flag: `CORE` has none (R25). -/

namespace Sys2Proof.Machine

/-- The cause code of a fault (R190). -/
def Cause.code : Cause → BitVec 4
  | .illegalCommand => 1
  | .tableNotBuilt => 2
  | .operandWidth => 3
  | .lengthRange => 4
  | .lengthZero => 5
  | .typeWidth => 6
  | .bufferOverrun => 7
  | .badRegister => 8

/-- A flag as bit 0 of a register. -/
def flagBit (b : Bool) : Word := (BitVec.ofBool b).setWidth 64

/-- `STATUS` as a register (R24): `F` is bit 0, `TV` bit 1, `CAUSE` bits 7:4, every other bit 0. -/
def Status.word (st : Status) : Word :=
  flagBit st.f ||| (flagBit st.tv <<< 1) ||| (st.cause.setWidth 64 <<< 4)

/-- `CONFIG.WCODE` (R33). -/
def wcode : Width → BitVec 2
  | .w8 => 0
  | .w16 => 1
  | .w32 => 2
  | .w64 => 3

/-- `CONFIG.ENDIAN` (R33): 0 means little-endian. -/
def endianCode : Endian → BitVec 1
  | .little => 0

/-- `CONFIG` as a register (R33): `WCODE` in bits 1:0, `ENDIAN` in bit 8, every other bit 0. -/
def configWord (w : Width) : Word :=
  (wcode w).setWidth 64 ||| ((endianCode Config.endian).setWidth 64 <<< 8)

/-- The `FAULT` output: equal to `STATUS.F` at all times (R14, R194). -/
def State.faultOut (s : State) : Bool := s.status.f

end Sys2Proof.Machine
end

