-- ==== Sys2Proof/Machine/Ops.lean ====
section
/-! DEFINITION. The shared operations: bytes of the buffer and transfers on the memory port (00_scope.md R18; 20_memory.md
R50 to R61), fault entry and reset (60 R200; 70 R220), register reads and writes (42 R170, R171). -/

namespace Sys2Proof.Machine

/-! ## Bytes of the buffer -/

/-- What an index no entry names reads as. DESIGN CHOICE 0 (assumption log 6): the spec gives the buffer no contents
("holds whatever the platform left there", R39). -/
def Memory.unlisted : Byte := 0

/-- The canonical form: indices rising, no entry equal to `Memory.unlisted`. -/
abbrev Memory.wf (m : Memory) : Prop :=
  m.Pairwise (fun c d => c.1 < d.1) ∧ ∀ c ∈ m, c.2 ≠ Memory.unlisted

/-- The byte at an index (`MemByte`, R18). -/
def Memory.read : Memory → Nat → Byte
  | [], _ => Memory.unlisted
  | c :: m, a => if c.1 = a then c.2 else Memory.read m a

/-- The memory without an entry for `a`. -/
def Memory.erase (m : Memory) (a : Nat) : Memory := m.filter (fun c => decide (c.1 ≠ a))

/-- The memory with an entry for `a` before the first larger index. -/
def Memory.insert (a : Nat) (v : Byte) : Memory → Memory
  | [] => [(a, v)]
  | c :: m => if a < c.1 then (a, v) :: c :: m else c :: Memory.insert a v m

/-- The memory after the byte `v` is stored at index `a`. -/
def Memory.write (m : Memory) (a : Nat) (v : Byte) : Memory :=
  if v = Memory.unlisted then m.erase a else Memory.insert a v (m.erase a)

/-- Buffer bit `k` (R56): bit `k mod 8` of the byte at index `k div 8`. -/
def Memory.bit (m : Memory) (k : Nat) : Bool := (m.read (k / 8)).getLsbD (k % 8)

/-- The `n` bytes at `a`, assembled little-endian and zero-extended (R18, R55); for `n <= 8`. -/
def Memory.load (m : Memory) (a : Nat) : Nat → Word
  | 0 => 0
  | n + 1 => (m.read a).setWidth 64 ||| (Memory.load m (a + 1) n <<< 8)

/-- The low `n` bytes of `v` stored at `a`, byte `k` at index `a + k` (R18, R55); for `n <= 8`. -/
def Memory.store (m : Memory) (a : Nat) : Nat → Word → Memory
  | 0, _ => m
  | n + 1, v => Memory.store (m.write a (v.setWidth 8)) (a + 1) n (v >>> 8)

/-- The same stores as single-byte accesses in the order of the list `order` of byte numbers: the open parameter
`ByteOrderWithinTransfer` (R60, D19; assumption log 8). -/
def Memory.storeInOrder (m : Memory) (a : Nat) (v : Word) (order : List Nat) : Memory :=
  order.foldl (fun m k => m.write (a + k) ((v >>> (8 * k)).setWidth 8)) m

/-- The bytes `image` stored from index `a` on. -/
def Memory.fill (m : Memory) (a : Nat) : List Byte → Memory
  | [] => m
  | v :: image => Memory.fill (m.write a v) (a + 1) image

/-! ## The memory port -/

/-- The trace of one transfer; a transfer of no bytes is no event (R18). -/
def transferOf (kind : AccessKind) (a n : Nat) : List Transfer :=
  if n = 0 then [] else [{ kind := kind, addr := a, len := n }]

/-- The state with the transfers `ts` at the end of the memory port's trace. -/
def State.logged (s : State) (ts : List Transfer) : State := { s with bus := s.bus ++ ts }

/-- `MemRead(a, n)` (R18): the value, zero-extended to 64 bits, and the state with the transfer in the trace. -/
def State.memRead (s : State) (a n : Nat) : Word × State :=
  (s.mem.load a n, s.logged (transferOf .read a n))

/-- `MemWrite(a, n, v)` (R18). -/
def State.memWrite (s : State) (a n : Nat) (v : Word) : State :=
  { s.logged (transferOf .write a n) with mem := s.mem.store a n v }

/-! ## Fault entry and reset -/

/-- Fault entry (R200): `F`, `CAUSE` and `FINFO`, and "nothing else changes". Every caller tests `F = 0` first.
A next state, not a stop of the model (assumption log 12). -/
def State.raise (s : State) (cause : Cause) (info : Word) : State :=
  { s with status := { s.status with f := true, cause := cause.code }, finfo := info }

/-- The reset operation (R220): the registers of R39 take their reset values, the table becomes unspecified
(assumption log 4), and nothing outside `CORE` changes (log 16). There is no return from a fault but this (R204). -/
def resetOp (s : State) : State :=
  { s with
    crc := CrcEngine.unbuilt s.crc.width
    status := { f := false, tv := false, cause := 0 }
    arg0 := 0
    arg1 := 0
    arg2 := 0
    res := 0
    finfo := 0
    buflen := 0 }

/-! ## Results and the CRC engine -/

/-- The state after an instruction's result is in `RES` (R22). -/
def State.withRes (s : State) (v : Word) : State := { s with res := v }

/-- The state after a read returned `v` to the host. -/
def State.withRdata (s : State) (v : Word) : State := { s with rdata := v }

/-! ## The register port -/

/-- `FINFO` of a `BadRegister` fault (R29): `2^32 + n`. -/
def badRegisterInfo (n : CmdWord) : Word := (1 : Word) <<< 32 + n.setWidth 64

/-- A register of the CRC engine read on the port (R170): zero-extended when a table is built; otherwise any value
whose bits `63:W` are 0, drawn anew (assumption log 5). -/
def State.engineRead (s : State) (x : BitVec s.crc.width.bits) : Word × State :=
  if s.status.tv then (x.setWidth 64, s)
  else (((Config.freeValue s.draws).setWidth s.crc.width.bits).setWidth 64, { s with draws := s.draws + 1 })

/-- The value a register shows on the port (R20, R170), with the state after the read. -/
def State.regValue (s : State) : Reg → Word × State
  | .arg0 => (s.arg0, s)
  | .arg1 => (s.arg1, s)
  | .arg2 => (s.arg2, s)
  | .res => (s.res, s)
  | .status => (s.status.word, s)
  | .finfo => (s.finfo, s)
  | .buflen => (s.buflen, s)
  | .crcPoly => s.engineRead s.crc.poly
  | .config => (configWord s.crc.width, s)
  | .crcTable i => s.engineRead s.crc.table[i]

/-- `RegRead(n)` (R170): the value returned goes to `rdata` (assumption log 3); an unmapped number returns 0 and raises
`BadRegister` only when `F = 0`. -/
def regRead (n : CmdWord) (s : State) : State :=
  match Reg.ofNumber n with
  | some r => (s.regValue r).2.withRdata (s.regValue r).1
  | none => (if s.status.f then s else s.raise .badRegister (badRegisterInfo n)).withRdata 0

/-- A writable register takes a value (R20, R171); none for a register the host may not write. -/
def State.regUpdate (s : State) (v : Word) : Reg → Option State
  | .arg0 => some { s with arg0 := v }
  | .arg1 => some { s with arg1 := v }
  | .arg2 => some { s with arg2 := v }
  | .buflen => some { s with buflen := v }
  | .res | .status | .finfo | .crcPoly | .config | .crcTable _ => none

/-- `RegWrite(n, v)` (R171): ignored while `F = 1`; `BadRegister` for a read-only register or an unmapped number. -/
def regWrite (n : CmdWord) (v : Word) (s : State) : State :=
  if s.status.f then s
  else
    match (Reg.ofNumber n).bind (s.regUpdate v) with
    | some t => t
    | none => s.raise .badRegister (badRegisterInfo n)

/-- The value a host writes (R88, R176). -/
def resolveSource (s : State) : WriteSource → Word
  | .value v => v
  | .lastRead => s.rdata

end Sys2Proof.Machine
end

