-- ==== Sys2Proof/Machine/Operands.lean ====
section
/-! DEFINITION. The operand forms (10_state.md R21; 40_crc.md R110; 41_bitfield.md R130, R131, R140 to R143; 00_scope.md
R19) and the checks of the instructions, in the order of the cause codes (60 R196). Every operand of a check is an
integer: no sum or product wraps (R19). -/

namespace Sys2Proof.Machine

/-! ## Operands as integers -/

/-- `ARG1` as an integer: the bit offset of a field, or the index of the first byte of a CRC range (R21, R130). -/
abbrev State.off (s : State) : Nat := s.arg1.toNat
/-- `ARG2` as an integer: the bit length of a field, or the number of bytes of a CRC range (R21, R130). -/
abbrev State.len (s : State) : Nat := s.arg2.toNat
/-- `BUFLEN` as an integer (R30). -/
abbrev State.bytes (s : State) : Nat := s.buflen.toNat

/-! ## The CRC operand in `ARG0` -/

/-- `v[63:W] = 0` (R110); for `W = 64` it holds of every `v`. -/
def operandFits (w : Nat) (v : Word) : Bool := v >>> w == 0

/-- `ARG0[W-1:0]` (R21): the polynomial or the initial remainder. -/
def State.crcOperand (s : State) : BitVec s.crc.width.bits := s.arg0.setWidth s.crc.width.bits

/-- The check of `CRC.BUILD` (R107). -/
def buildCheck (s : State) : Option Cause :=
  if operandFits s.crc.width.bits s.arg0 then none else some .operandWidth

/-- The checks of `CRC.CMPI` (R114), in order. -/
def stepCheck (s : State) : Option Cause :=
  if s.status.tv = false then some .tableNotBuilt
  else if operandFits s.crc.width.bits s.arg0 then none
  else some .operandWidth

/-- The checks of `CRC.CMPB` (R111), in order. -/
def rangeCheck (s : State) : Option Cause :=
  match stepCheck s with
  | some c => some c
  | none => if s.off + s.len > s.bytes then some .bufferOverrun else none

/-! ## Bit fields -/

/-- Whether a field of `len` bits is wider than the result type (R152); `BF.SET` has no result type. -/
def tooWide (len : Nat) : Option ResultWidth → Bool
  | some tw => decide (len > tw.bits)
  | none => false

/-- The checks `BF.SET` and `BF.GET` share (R140), in order. -/
def fieldCheck (tw : Option ResultWidth) (s : State) : Option Cause :=
  if s.len > 64 then some .lengthRange
  else if s.len = 0 then some .lengthZero
  else if tooWide s.len tw then some .typeWidth
  else if s.off + s.len > 8 * s.bytes then some .bufferOverrun
  else none

/-- The test of the fast path (R143): offset and length are multiples of 8. -/
def aligned (off len : Nat) : Bool := decide (off % 8 = 0 ∧ len % 8 = 0)

/-- The length of the window at byte `b`, clipped to a buffer of `bytes` bytes (R61). -/
def clip (bytes b : Nat) : Nat := min 8 (bytes - b)

/-- `ones_64 >> (64 - len)` (R131, R132): `len` ones. -/
def lowOnes (len : Nat) : Word := BitVec.allOnes 64 >>> (64 - len)

/-- The mask of a field in its window (R131): `len` ones from bit `sh` on. -/
def fieldMask (len sh : Nat) : Word := lowOnes len <<< sh

/-- The window with the field replaced (R131). -/
def mergeWindow (w v : Word) (len sh : Nat) : Word :=
  (w &&& ~~~(fieldMask len sh)) ||| ((v <<< sh) &&& fieldMask len sh)

/-- The field of a window (R132). -/
def extractWindow (w : Word) (len sh : Nat) : Word := (w >>> sh) &&& lowOnes len

end Sys2Proof.Machine
end

