-- ==== Sys2Proof/Machine/Crc.lean ====
section
/-! DEFINITION. The CRC unit (40_crc.md): the pure functions R100 to R103, written once for every width (R117), and the
meanings of `CRC.BUILD`, `CRC.CMPB` and `CRC.CMPI`. -/

namespace Sys2Proof.Machine

/-! ## Pure functions -/

/-- One iteration of R100: test the top bit, shift, conditionally XOR the polynomial. -/
def divStep {w : Nat} (p r : BitVec w) : BitVec w :=
  if r.msb then (r <<< 1) ^^^ p else r <<< 1

/-- `n` iterations of R100. -/
def divSteps {w : Nat} (p : BitVec w) : Nat → BitVec w → BitVec w
  | 0, r => r
  | n + 1, r => divSteps p n (divStep p r)

/-- `TableEntry(p, i)` (R100). -/
def tableEntry {w : Nat} (p : BitVec w) (i : Byte) : BitVec w :=
  divSteps p 8 (i.setWidth w <<< (w - 8))

/-- The 256 entries of the table of a polynomial (R107). -/
def buildTable {w : Nat} (p : BitVec w) : Vector (BitVec w) 256 :=
  ⟨((List.range 256).map (fun i => tableEntry p (BitVec.ofNat 8 i))).toArray, by simp⟩

/-- The index of `CrcStep` (R102): the byte XOR the top byte of the remainder. -/
def crcIndex {w : Nat} (r : BitVec w) (d : Byte) : Byte := d ^^^ (r >>> (w - 8)).setWidth 8

/-- `CrcStep(tab, r, d)` (R102); for `W = 8` the shift gives 0 (R106). -/
def crcStep {w : Nat} (tab : Vector (BitVec w) 256) (r : BitVec w) (d : Byte) : BitVec w :=
  tab[(crcIndex r d).toNat]'(crcIndex r d).isLt ^^^ (r <<< 8)

/-- `CrcCompute(tab, s, init)` (R103): the left fold of `CrcStep`. -/
def crcCompute {w : Nat} (tab : Vector (BitVec w) 256) (s : List Byte) (init : BitVec w) : BitVec w :=
  s.foldl (crcStep tab) init

/-- The bit-at-a-time division of one byte (R105), in which the byte enters at the top. -/
def bitwiseStep {w : Nat} (p r : BitVec w) (d : Byte) : BitVec w :=
  divSteps p 8 (r ^^^ (d.setWidth w <<< (w - 8)))

/-! ## The meanings -/

/-- An instruction that has passed its checks takes effect; otherwise the first failing check's fault is entered, with
the command word in `FINFO` (R173, R196, R201). -/
def checked (check : Option Cause) (i : Instr) (s t : State) : Host.Outcome State Fault Refusal :=
  match check with
  | some cause => .next (s.raise cause ((encode i).setWidth 64))
  | none => .next t

/-- The state with the table of `p`, `CRC_POLY = p` and `TV = 1`, all in one step (R107, R108). -/
def State.withTable (s : State) (p : BitVec s.crc.width.bits) : State :=
  { s with
    crc := { width := s.crc.width, poly := p, table := buildTable p }
    status := { s.status with tv := true } }

/-- `CRC.BUILD` (R107). -/
def execCrcBuild (s : State) : Host.Outcome State Fault Refusal :=
  checked (buildCheck s) .crcBuild s (s.withTable s.crcOperand)

/-- The loop of `CRC.CMPB` (R111): `n` bytes from index `a` on, each read by one transfer, in ascending order. -/
def crcRange {w : Nat} (tab : Vector (BitVec w) 256) (s : State) (a : Nat) : Nat → BitVec w → BitVec w × State
  | 0, r => (r, s)
  | n + 1, r =>
    crcRange tab (s.memRead a 1).2 (a + 1) n (crcStep tab r ((s.memRead a 1).1.setWidth 8))

/-- `CRC.CMPB` after its checks (R111). -/
def cmpbEffect (s : State) : State :=
  let out := crcRange s.crc.table s s.off s.len s.crcOperand
  out.2.withRes (out.1.setWidth 64)

/-- `CRC.CMPB` (R111). -/
def execCrcCmpb (s : State) : Host.Outcome State Fault Refusal :=
  checked (rangeCheck s) .crcCmpb s (cmpbEffect s)

/-- `CRC.CMPI imm8` (R114). -/
def execCrcCmpi (imm8 : Byte) (s : State) : Host.Outcome State Fault Refusal :=
  checked (stepCheck s) (.crcCmpi imm8) s
    (s.withRes ((crcStep s.crc.table s.crcOperand imm8).setWidth 64))

end Sys2Proof.Machine
end

