-- ==== Sys2Proof/Machine/BitField.lean ====
section
/-! DEFINITION. The bit-field unit (41_bitfield.md): the elementary operations R131 and R132, the paths of R143, and the
meanings of `BF.SET` and `BF.GET`. -/

namespace Sys2Proof.Machine

/-! ## Elementary operations -/

/-- `Set56(off, len, v)` (R131): one read and one write of the clipped window. -/
def set56 (off len : Nat) (v : Word) (s : State) : State :=
  let n := clip s.bytes (off / 8)
  let rd := s.memRead (off / 8) n
  rd.2.memWrite (off / 8) n (mergeWindow rd.1 v len (off % 8))

/-- `Get56(off, len)` (R132): one read of the clipped window. -/
def get56 (off len : Nat) (s : State) : Word × State :=
  let rd := s.memRead (off / 8) (clip s.bytes (off / 8))
  (extractWindow rd.1 len (off % 8), rd.2)

/-! ## BF.SET -/

/-- The fast path of `BF.SET` (R145): a byte copy. -/
def setFast (off len : Nat) (v : Word) (s : State) : State := s.memWrite (off / 8) (len / 8) v

/-- The slow path of `BF.SET` (R144, R147): one elementary operation up to 56 bits, two above, the low part first. -/
def setSlow (off len : Nat) (v : Word) (s : State) : State :=
  if len ≤ 56 then set56 off len v s
  else set56 (off + 56) (len - 56) (v >>> 56) (set56 off 56 v s)

/-- `BF.SET` after its checks (R143, R144). -/
def writeField (off len : Nat) (v : Word) (s : State) : State :=
  if aligned off len then setFast off len v s else setSlow off len v s

/-- `BF.SET` (R144). -/
def execBfSet (s : State) : Host.Outcome State Fault Refusal :=
  checked (fieldCheck none s) .bfSet s (writeField s.off s.len s.arg0 s)

/-! ## BF.GET -/

/-- The fast path of `BF.GET` (R150). -/
def getFast (off len : Nat) (s : State) : Word × State := s.memRead (off / 8) (len / 8)

/-- The slow path of `BF.GET` (R150, R153). -/
def getSlow (off len : Nat) (s : State) : Word × State :=
  if len ≤ 56 then get56 off len s
  else
    let lo := get56 off 56 s
    let hi := get56 (off + 56) (len - 56) lo.2
    (lo.1 ||| (hi.1 <<< 56), hi.2)

/-- `BF.GET` after its checks (R143, R150): the field's value and the state after the reads. -/
def readField (off len : Nat) (s : State) : Word × State :=
  if aligned off len then getFast off len s else getSlow off len s

/-- `BF.GET tw` (R150). -/
def execBfGet (tw : ResultWidth) (s : State) : Host.Outcome State Fault Refusal :=
  checked (fieldCheck (some tw) s) (.bfGet tw) s
    ((readField s.off s.len s).2.withRes (readField s.off s.len s).1)

end Sys2Proof.Machine
end

