-- ==== Sys2Proof/Machine/Dispatch.lean ====
section
/-! DEFINITION. The dispatch of a decoded command word to the rule of its instruction (42_system.md R173;
assumption log 15). -/

namespace Sys2Proof.Machine

-- One arm per constructor of `Instr`.
def exec (i : Instr) (s : State) : Host.Outcome State Fault Refusal :=
  match i with
  | .crcBuild => Sys2Proof.Machine.execCrcBuild s
  | .crcCmpb => Sys2Proof.Machine.execCrcCmpb s
  | .crcCmpi imm8 => Sys2Proof.Machine.execCrcCmpi imm8 s
  | .bfSet => Sys2Proof.Machine.execBfSet s
  | .bfGet tw => Sys2Proof.Machine.execBfGet tw s

end Sys2Proof.Machine
end

