-- ==== Sys2Proof/Machine/Port.lean ====
section
/-! DEFINITION. The ports (42_system.md R173; 70 R220), the platform around them (20_memory.md R52, R67, R70; 70 R226), and
where a step takes its next action from. -/

namespace Sys2Proof.Machine

/-! ## Command issue -/

/-- `CmdIssue(c)` (R173): ignored while `F = 1`, before decoding; `IllegalCommand` for a word no row selects; otherwise the
rule of the decoded instruction. -/
def cmdIssue (c : CmdWord) (s : State) : Host.Outcome State Fault Refusal :=
  if s.status.f then .next s
  else
    match decode c with
    | .error _ => .next (s.raise .illegalCommand (c.setWidth 64))
    | .ok i => exec i s

/-! ## The platform -/

/-- The duty R226 (a): "`BUFLEN` is not larger than the memory actually bound". No action of a program rebinds while a command
runs, so what is bound at its start stays bound. -/
def State.bufferBound (s : State) : Bool := decide (s.bytes ≤ s.bound)

/-- A transfer accesses the byte at `a`. -/
def Transfer.covers (t : Transfer) (a : Nat) : Bool := decide (t.addr ≤ a ∧ a < t.addr + t.len)

/-- Another master's access conflicts with a transfer of `CORE` (R66, R67): one of the two writes the byte. -/
def conflicts (x : ForeignAccess) (t : Transfer) : Bool :=
  t.covers x.addr && (x.kind == .write || t.kind == .write)

/-- A data race (R67) between the transfers of an instruction and the accesses of other masters during it. -/
def races (bus : List Transfer) (during : List ForeignAccess) : Bool :=
  during.any (fun x => bus.any (conflicts x))

/-- What another master's access leaves in the buffer. -/
def applyAccess (x : ForeignAccess) (m : Memory) : Memory :=
  match x.kind with
  | .read => m
  | .write => m.write x.addr x.value

/-- The buffer after the accesses of other masters. -/
def foreignWrites (during : List ForeignAccess) (m : Memory) : Memory :=
  during.foldl (fun m x => applyAccess x m) m

/-- What the platform makes of a command that ran to `s`, with other masters' accesses `during`: a stop when one of those is at
an index that is not bound, or races (R226 (c)), else the other masters' writes take effect. Those touch no byte of the
footprint, so their order with `CORE`'s accesses does not matter (assumption logs 9, 10, 11 and 18). -/
def platform (during : List ForeignAccess) (s : State) : Host.Outcome State Fault Refusal :=
  if ¬ during.all (fun x => decide (x.addr < s.bound)) then .fault .unboundByte
  else if races s.bus during then .fault .dataRace
  else .next { s with mem := foreignWrites during s.mem }

/-- A command with what the platform does around it: no instruction runs while the duty R226 (a) is broken (assumption log 10).
A command that `F = 1` makes `CORE` ignore runs no instruction (R203). -/
def runCommand (c : CmdWord) (during : List ForeignAccess) (s : State) : Host.Outcome State Fault Refusal :=
  if ¬ (s.status.f || s.bufferBound) then .fault .bufferNotBound
  else
    match cmdIssue c s with
    | .next t => platform during t
    | .fault r => .fault r
    | .refused r => .refused r

/-! ## Actions -/

/-- What an action of the host or its platform does (assumption logs 16 and 17; no action has a duration, log 19). -/
def act (x : Action) (s : State) : Host.Outcome State Fault Refusal :=
  match x with
  | .regRead n => .next (regRead n s)
  | .regWrite n src => .next (regWrite n (resolveSource s src) s)
  | .command c during => runCommand c during s
  | .reset => .next (resetOp s)
  | .bufRead a =>
    if a < s.bound then .next (s.withRdata ((s.mem.read a).setWidth 64)) else .fault .unboundByte
  | .bufWrite a v =>
    if a < s.bound then .next { s with mem := s.mem.write a v } else .fault .unboundByte
  | .bind image => .next { s with mem := Memory.fill [] 0 image, bound := image.length }

/-- The state in which an action runs: it has left the program, and the memory port has done nothing for it yet. -/
def State.begin (s : State) (rest : List Action) : State := { s with program := rest, bus := [] }

/-- One step of a machine whose program is as given: the next action, or, with none, nothing (R15, R221: "after reset
`CORE` is idle and does nothing until the host issues a port operation"; assumption log 13). -/
def stepProgram (s : State) : Host.Outcome State Fault Refusal :=
  match s.program with
  | [] => .next s
  | x :: rest => act x (s.begin rest)

/-- The state whose next action is the command word `c`, with no other master acting. -/
def State.withCommand (s : State) (c : CmdWord) : State := { s with program := .command c [] :: s.program }

/-- The machine after the assembled lines are put before what the host does next; none if a line is ill formed (R87). -/
def State.withLines (s : State) (ls : List AsmLine) : Option State :=
  (assembleAll ls).map (fun xs => { s with program := xs ++ s.program })

end Sys2Proof.Machine
end

