-- ==== Sys2Proof/Machine/Step.lean ====
section
/-! DEFINITION. The step of the machine, and the host's way to put a command word where the step takes its next one. -/

namespace Sys2Proof.Machine

/-- One step: the next action of the host or its platform (00_scope.md R15). -/
def step (s : State) : Host.Outcome State Fault Refusal := stepProgram s

/-- `s` with the command word of `w`'s low `nbits` bits as the host's next action: `CORE` fetches nothing, a command word is
handed to it by value (R80), so this stands for the host issuing it (assumption log 2). -/
def State.withFetchWord (s : State) (nbits w : Nat) : State := s.withCommand (BitVec.ofNat 32 (w % 2 ^ nbits))

end Sys2Proof.Machine
end

