-- ==== Sys2Proof/Machine/Assembler.lean ====
section
/-! DEFINITION. The text of the assembler's lines (30_encoding.md R87, R88): one port operation or pseudo-instruction a
line, `;` starts a comment, mnemonics are case-insensitive, numbers are decimal or `0x` hexadecimal. What R87 leaves open of the text is assumption log 20. -/

namespace Sys2Proof.Machine

/-- The tokens of a line. -/
inductive Token where
  | word (cs : List Char)
  | comma
  | openBracket
  | closeBracket
  deriving DecidableEq, Repr

/-- The word read so far as a token, if there is one. -/
def flushWord (cur : List Char) : List Token := if cur.isEmpty then [] else [.word cur]

/-- The tokens of a line, `cur` being the word read so far. -/
def tokens : List Char → List Char → List Token
  | [], cur => flushWord cur
  | c :: cs, cur =>
    if c = ';' then flushWord cur
    else if c = ' ' ∨ c = '\t' then flushWord cur ++ tokens cs []
    else if c = ',' then flushWord cur ++ .comma :: tokens cs []
    else if c = '[' then flushWord cur ++ .openBracket :: tokens cs []
    else if c = ']' then flushWord cur ++ .closeBracket :: tokens cs []
    else tokens cs (cur ++ [c])

/-- The value of a digit in a base up to 16. -/
def digit (base : Nat) (c : Char) : Option Nat :=
  let d :=
    if '0' ≤ c ∧ c ≤ '9' then c.toNat - '0'.toNat
    else if 'a' ≤ c.toLower ∧ c.toLower ≤ 'f' then c.toLower.toNat - 'a'.toNat + 10
    else 16
  if d < base then some d else none

/-- The value of a run of digits after `acc`. -/
def digits (base : Nat) : List Char → Nat → Option Nat
  | [], acc => some acc
  | c :: cs, acc => (digit base c).bind (fun d => digits base cs (acc * base + d))

/-- A number: decimal, or hexadecimal after `0x` (R87). -/
def number : List Char → Option Nat
  | [] => none
  | '0' :: 'x' :: c :: cs => digits 16 (c :: cs) 0
  | c :: cs => digits 10 (c :: cs) 0

/-- The registers with a plain name (R20). -/
def plainRegs : List (List Char × Reg) :=
  [("ARG0".toList, .arg0), ("ARG1".toList, .arg1), ("ARG2".toList, .arg2), ("RES".toList, .res),
   ("STATUS".toList, .status), ("FINFO".toList, .finfo), ("BUFLEN".toList, .buflen),
   ("CRC_POLY".toList, .crcPoly), ("CONFIG".toList, .config)]

/-- A register name at the head of a token list, `CRC_TABLE[i]` among them, with the tokens after it (R20, R87). -/
def regName : List Token → Option (Reg × List Token)
  | .word w :: rest =>
    if w = "CRC_TABLE".toList then
      match rest with
      | .openBracket :: .word i :: .closeBracket :: rest' =>
        (number i).bind (fun n => if h : n < 256 then some (.crcTable ⟨n, h⟩, rest') else none)
      | _ => none
    else (plainRegs.lookup w).map (fun r => (r, rest))
  | _ => none

/-- A list of numbers separated by commas, up to a closing bracket, with the tokens after it. -/
def numberList : List Token → Option (List Nat × List Token)
  | .closeBracket :: rest => some ([], rest)
  | .word _ :: .comma :: .closeBracket :: _ => none
  | .word w :: .comma :: rest =>
    (number w).bind (fun n => (numberList rest).map (fun p => (n :: p.1, p.2)))
  | .word w :: .closeBracket :: rest => (number w).map (fun n => ([n], rest))
  | _ => none

/-- One, two or three numbers separated by commas and nothing after them. -/
def numbers : List Token → Option (List Nat)
  | [.word a] => (number a).map (fun x => [x])
  | [.word a, .comma, .word b] => (number a).bind (fun x => (number b).map (fun y => [x, y]))
  | [.word a, .comma, .word b, .comma, .word c] =>
    (number a).bind (fun x => (number b).bind (fun y => (number c).map (fun z => [x, y, z])))
  | _ => none

/-- The result width of a suffix `.b .h .w .d` (R87). -/
def suffix (s : List Char) : Option ResultWidth :=
  [(".b".toList, ResultWidth.b), (".h".toList, .h), (".w".toList, .w), (".d".toList, .d)].lookup s

/-- The pseudo-instruction of a line's mnemonic, in lower case, and its operands (R88). -/
def pseudoLine (m : List Char) (ops : List Token) : Option Pseudo :=
  if m = "buildtable".toList then
    match numbers ops with
    | some [p] => some (.buildTable p)
    | _ => none
  else if m = "compute".toList then
    match numbers ops with
    | some [base, len] => some (.compute base len none)
    | some [base, len, init] => some (.compute base len (some init))
    | _ => none
  else if m = "mv".toList then
    if ops = [.word "ARG0".toList, .comma, .word "RES".toList] then some .mvArg0Res else none
  else if m = "computeseq".toList then
    match ops with
    | .openBracket :: rest =>
      match numberList rest with
      | some (bytes, []) => some (.computeSeq bytes none)
      | some (bytes, [.comma, .word w]) => (number w).map (fun init => .computeSeq bytes (some init))
      | _ => none
    | _ => none
  else if m = "setbits".toList then
    match numbers ops with
    | some [v, off, len] => some (.setBits v off len)
    | _ => none
  else if m.take 7 = "getbits".toList then
    match suffix (m.drop 7), numbers ops with
    | some tw, some [off, len] => some (.getBits tw off len)
    | _, _ => none
  else none

/-- The port operation of a line's mnemonic, in lower case, and its operands (R87). -/
def plainLine (m : List Char) (ops : List Token) : Option AsmLine :=
  if m = "wr".toList then
    match regName ops with
    | some (r, [.comma, .word v]) => (number v).map (fun n => .wr r n)
    | _ => none
  else if m = "rd".toList then
    match regName ops with
    | some (r, []) => some (.rd r)
    | _ => none
  else if m = "crc.cmpi".toList then
    match numbers ops with
    | some [d] => some (.crcCmpi d)
    | _ => none
  else if m = ".word".toList then
    match numbers ops with
    | some [v] => some (.word v)
    | _ => none
  else if ops ≠ [] then none
  else if m = "reset".toList then some .reset
  else if m = "crc.build".toList then some .crcBuild
  else if m = "crc.cmpb".toList then some .crcCmpb
  else if m = "bf.set".toList then some .bfSet
  else if m.take 6 = "bf.get".toList then (suffix (m.drop 6)).map .bfGet
  else none

/-- The lines a text line stands for: none of its own for a blank line, its expansion for a pseudo-instruction. -/
def readLine (text : List Char) : Option (List AsmLine) :=
  match tokens text [] with
  | [] => some []
  | .word m :: ops =>
    match plainLine (m.map Char.toLower) ops with
    | some l => some [l]
    | none => (pseudoLine (m.map Char.toLower) ops).map Pseudo.expand
  | _ => none

/-- The port operations of a program text, given line by line; none where a line cannot be read or assembled. -/
def readProgram (texts : List (List Char)) : Option (List Action) :=
  (texts.mapM readLine).bind (fun lss => assembleAll lss.flatten)

end Sys2Proof.Machine
end

