-- ==== Sys2Proof/Safety.lean ====
section
/-! DEFINITION. The terms claims use: the reference meaning of a field (41_bitfield.md R134), the footprint table
(20_memory.md R62), what a run that has gone wrong is (60_exceptions.md R203), and the invariant of the machine. -/

namespace Sys2Proof.Machine

/-! ## The reference meaning of a field (R134) -/

/-- The buffer as one little-endian integer: the sum of `MemByte(i) * 2^(8i)` for `i < n` (R56, R134). -/
def bufferValue (m : Memory) : Nat → Nat
  | 0 => 0
  | n + 1 => bufferValue m n + (m.read n).toNat * 2 ^ (8 * n)

/-- `GetField(B, off, len)` (R134). -/
def getField (B off len : Nat) : Nat := (B / 2 ^ off) % 2 ^ len

/-- `SetField(B, off, len, v)` (R134). -/
def setField (B off len v : Nat) : Nat :=
  B - ((B / 2 ^ off) % 2 ^ len) * 2 ^ off + (v % 2 ^ len) * 2 ^ off

/-! ## The footprint table (R62) -/

/-- The transfer `MemRead(a, n)` of the table. -/
def readT (a n : Nat) : Transfer := { kind := .read, addr := a, len := n }
/-- The transfer `MemWrite(a, n)` of the table. -/
def writeT (a n : Nat) : Transfer := { kind := .write, addr := a, len := n }

/-- The transfers of `BF.SET` on a buffer of `bytes` bytes (R62). -/
def setFootprint (bytes off len : Nat) : List Transfer :=
  if off % 8 = 0 ∧ len % 8 = 0 then [writeT (off / 8) (len / 8)]
  else if len ≤ 56 then
    [readT (off / 8) (min 8 (bytes - off / 8)), writeT (off / 8) (min 8 (bytes - off / 8))]
  else
    [readT (off / 8) (min 8 (bytes - off / 8)), writeT (off / 8) (min 8 (bytes - off / 8)),
     readT ((off + 56) / 8) (min 8 (bytes - (off + 56) / 8)),
     writeT ((off + 56) / 8) (min 8 (bytes - (off + 56) / 8))]

/-- The transfers of `BF.GET` on a buffer of `bytes` bytes (R62). -/
def getFootprint (bytes off len : Nat) : List Transfer :=
  if off % 8 = 0 ∧ len % 8 = 0 then [readT (off / 8) (len / 8)]
  else if len ≤ 56 then [readT (off / 8) (min 8 (bytes - off / 8))]
  else
    [readT (off / 8) (min 8 (bytes - off / 8)), readT ((off + 56) / 8) (min 8 (bytes - (off + 56) / 8))]

/-- The transfers of `CRC.CMPB` (R62): one byte each, ascending. -/
def rangeFootprint (base len : Nat) : List Transfer := (List.range len).map (fun i => readT (base + i) 1)

/-- The bytes of a range, in ascending index order (R112). -/
def rangeBytes (m : Memory) (base len : Nat) : List Byte := (List.range len).map (fun i => m.read (base + i))

/-! ## The fault conditions of a command (R190) -/

/-- The condition under which a decoded command raises a cause (R190). `IllegalCommand` is decided by decoding and
`BadRegister` belongs to the register port, so no decoded command has them. -/
def faultCondition (i : Instr) (s : State) : Cause → Prop
  | .illegalCommand => False
  | .tableNotBuilt =>
    match i with
    | .crcCmpb | .crcCmpi _ => s.status.tv = false
    | .crcBuild | .bfSet | .bfGet _ => False
  | .operandWidth =>
    match i with
    | .crcBuild | .crcCmpb | .crcCmpi _ => s.arg0.toNat ≥ 2 ^ s.crc.width.bits
    | .bfSet | .bfGet _ => False
  | .lengthRange =>
    match i with
    | .bfSet | .bfGet _ => s.arg2.toNat > 64
    | .crcBuild | .crcCmpb | .crcCmpi _ => False
  | .lengthZero =>
    match i with
    | .bfSet | .bfGet _ => s.arg2.toNat = 0
    | .crcBuild | .crcCmpb | .crcCmpi _ => False
  | .typeWidth =>
    match i with
    | .bfGet tw => s.arg2.toNat > tw.bits
    | .crcBuild | .crcCmpb | .crcCmpi _ | .bfSet => False
  | .bufferOverrun =>
    match i with
    | .bfSet | .bfGet _ => s.arg1.toNat + s.arg2.toNat > 8 * s.buflen.toNat
    | .crcCmpb => s.arg1.toNat + s.arg2.toNat > s.buflen.toNat
    | .crcBuild | .crcCmpi _ => False
  | .badRegister => False

/-- The state after a command's fault entry (R200): `F`, `CAUSE` and `FINFO` take their values and nothing else changes. -/
def faultedBy (s : State) (cause : Nat) (c : CmdWord) : State :=
  { s with
    status := { f := true, tv := s.status.tv, cause := BitVec.ofNat 4 cause }
    finfo := c.setWidth 64 }

/-! ## Runs -/

/-- A run has gone wrong when it reaches `F = 1` (R203): "never as a final state that satisfies a postcondition" (assumption log
12). -/
def State.goneWrong (s : State) : Bool := s.status.f

/-- `n` steps from `s` neither stop nor go wrong on the way. -/
def safeRun (n : Nat) (s : State) : Prop :=
  ∀ k ≤ n, ∃ t, Host.Core.run Sys2Proof.core k s = .next t ∧ t.goneWrong = false

/-! ## The invariant -/

/-- What every step keeps: the canonical form of the memory, the table of the polynomial whenever `TV = 1` (R32), the fault
registers of R27 and R29, and every access of the last operation below `BUFLEN` (R53). -/
structure Inv (s : State) : Prop where
  /-- the memory's list is in its canonical form -/
  memory : Memory.wf s.mem
  /-- "whenever `STATUS.TV = 1`: for every `i` in 0..255, `CRC_TABLE[i] = TableEntry(CRC_POLY, i)`" (R32) -/
  table : s.status.tv = true → ∀ i : Fin 256, s.crc.table[i] = tableEntry s.crc.poly (BitVec.ofNat 8 i.val)
  /-- `CAUSE` and `FINFO` are 0 while `F = 0` (R27, R29) -/
  clear : s.status.f = false → s.status.cause = 0 ∧ s.finfo = 0
  /-- `CAUSE` is 1 to 8 while `F = 1` (R27) -/
  cause : s.status.f = true → 1 ≤ s.status.cause.toNat ∧ s.status.cause.toNat ≤ 8
  /-- `FINFO` has bit 32 set exactly for a register-port fault, and no bit above it (R29) -/
  info : s.status.f = true → s.finfo.toNat < 2 ^ 33 ∧ (s.finfo.getLsbD 32 = true ↔ s.status.cause = 8)
  /-- no access at an index `>= BUFLEN` (R53) -/
  bounds : ∀ x ∈ s.bus, x.addr + x.len ≤ s.bytes

end Sys2Proof.Machine
end

