-- ==== Sys2Proof/Certificates/Slice0/Obligations.lean ====
section
/-! DEFINITION. The statements for the provers. Each docstring names the rule of the spec it formalises, or says what it is
derived from. `faultedBy`, the footprints, `bufferValue`, `getField`, `setField`, `faultCondition` and `Inv` are defined in
Safety.lean from the spec's tables. -/

open Sys2Proof Sys2Proof.Machine

/-! ## Encoding -/

/-- Words written out from the opcode map (R84, R87) decode to the instructions they stand for. -/
def Obligations.TableWordsDecode : Prop :=
  decode 0b00000000000000000000000000000001 = .ok .crcBuild ∧
  decode 0b00000000000000000000000000000010 = .ok .crcCmpb ∧
  decode 0b00000000001100010000000000000011 = .ok (.crcCmpi 0x31) ∧
  decode 0b00000000111111110000000000000011 = .ok (.crcCmpi 0xFF) ∧
  decode 0b00000000000000000000000000010000 = .ok .bfSet ∧
  decode 0b00000000000000000000000000010001 = .ok (.bfGet .b) ∧
  decode 0b00000000000000000000000100010001 = .ok (.bfGet .h) ∧
  decode 0b00000000000000000000001000010001 = .ok (.bfGet .w) ∧
  decode 0b00000000000000000000001100010001 = .ok (.bfGet .d)

/-- Decoding and encoding agree on every word and every instruction (R84, R86): a word decodes to an instruction exactly when
it is that instruction's word. -/
def Obligations.DecodeInvertsEncode : Prop :=
  ∀ (c : CmdWord) (i : Instr), decode c = .ok i ↔ encode i = c

/-- R85: a word that matches no row, and only such a word, is illegal; issuing it raises cause 1 and has no other effect;
the words R85 lists are among them. -/
def Obligations.IllegalWordsRaise : Prop :=
  ∀ c : CmdWord,
    ((∃ e, decode c = .error e) ↔ ∀ r ∈ opcodeMap, c &&& r.mask ≠ r.pattern) ∧
    (∀ s : State, s.status.f = false → (∀ r ∈ opcodeMap, c &&& r.mask ≠ r.pattern) →
      cmdIssue c s = .next (faultedBy s 1 c)) ∧
    ((opcodeField c ≠ 0x01 ∧ opcodeField c ≠ 0x02 ∧ opcodeField c ≠ 0x03 ∧ opcodeField c ≠ 0x10 ∧
        opcodeField c ≠ 0x11) ∨
      rsv1Field c ≠ 0 ∨ rsv0Field c ≠ 0 ∨ (imm8Field c ≠ 0 ∧ opcodeField c ≠ 0x03) ∨
      (twField c ≠ 0 ∧ opcodeField c ≠ 0x11) →
      ∀ r ∈ opcodeMap, c &&& r.mask ≠ r.pattern)

/-- The register numbers of R20: each register has one number and no other number names a register. -/
def Obligations.RegisterNumbersNameRegisters : Prop :=
  ∀ (n : CmdWord) (r : Reg), Reg.ofNumber n = some r ↔ r.number = n

/-- The command words of the assembler's lines (R87). -/
def Obligations.AssemblerLinesGiveTheirWords : Prop :=
  assemble .crcBuild = some (.command 0x00000001 []) ∧
  assemble .crcCmpb = some (.command 0x00000002 []) ∧
  (∀ d < 256, assemble (.crcCmpi d) = some (.command (0x00000003 ||| (BitVec.ofNat 32 d <<< 16)) [])) ∧
  assemble .bfSet = some (.command 0x00000010 []) ∧
  assemble (.bfGet .b) = some (.command 0x00000011 []) ∧
  assemble (.bfGet .h) = some (.command 0x00000111 []) ∧
  assemble (.bfGet .w) = some (.command 0x00000211 []) ∧
  assemble (.bfGet .d) = some (.command 0x00000311 []) ∧
  (∀ v < 2 ^ 32, assemble (.word v) = some (.command (BitVec.ofNat 32 v) []))

/-! ## Reset and the invariant -/

/-- The reset values that the spec gives (10_state.md section 6), for every width. (`CRC_POLY`, `CRC_TABLE` and the buffer
have none.) -/
def Obligations.ResetValues : Prop :=
  ∀ w : Width,
    (resetFor w).arg0 = 0 ∧ (resetFor w).arg1 = 0 ∧ (resetFor w).arg2 = 0 ∧ (resetFor w).res = 0 ∧
    (resetFor w).status.f = false ∧ (resetFor w).status.tv = false ∧ (resetFor w).status.cause = 0 ∧
    (resetFor w).finfo = 0 ∧ (resetFor w).buflen = 0 ∧ (resetFor w).crc.width = w ∧
    (resetFor w).faultOut = false

/-- Derived from R220, with two choices of the model: reset, in any state, faulted or not, sets the registers of R39 in one step,
makes no memory access, and leaves the buffer as it is; `CRC_POLY` and the table become unspecified, so that reads of them
return free values again. That such a read is draw number `s.draws`, so that reset does not set the count of draws back, is
assumption log 5; that reset keeps the value last read and the host's side is assumption log 16. -/
def Obligations.ResetSetsEveryRegister : Prop :=
  ∀ (s : State) (rest : List Action), s.program = .reset :: rest →
    ∃ t, step s = .next t ∧
      t.crc.width = s.crc.width ∧
      t = { s with
        crc := t.crc
        status := { f := false, tv := false, cause := 0 }
        arg0 := 0, arg1 := 0, arg2 := 0, res := 0, finfo := 0, buflen := 0
        bus := [], program := rest } ∧
      ∀ n : CmdWord, n = 7 ∨ (256 ≤ n.toNat ∧ n.toNat ≤ 511) →
        (regRead n t).rdata = ((Config.freeValue s.draws).setWidth s.crc.width.bits).setWidth 64

/-- The invariant holds after reset, for every width. (It rests on the model's own reset value of the buffer's list, the
empty list: assumption log 6.) -/
def Obligations.ResetMeetsTheInvariant : Prop := ∀ w : Width, Inv (resetFor w)

/-- Every step keeps the invariant: the canonical form of the memory, `CRC_TABLE[i] = TableEntry(CRC_POLY, i)` whenever
`TV = 1` (R32), the fault registers (R27, R29), and every access below `BUFLEN` (R53). -/
def Obligations.StepKeepsTheInvariant : Prop :=
  ∀ s t : State, Inv s → step s = .next t → Inv t

/-- C9, R225, R196: right after reset, in every width, a compute finds no table, and a bit-field command finds length 0 before
it finds the empty buffer. -/
def Obligations.CommandsAfterResetFault : Prop :=
  ∀ (w : Width) (imm8 : Byte) (tw : ResultWidth),
    exec .crcCmpb (resetFor w) = .next (faultedBy (resetFor w) 2 (encode .crcCmpb)) ∧
    exec (.crcCmpi imm8) (resetFor w) = .next (faultedBy (resetFor w) 2 (encode (.crcCmpi imm8))) ∧
    exec .bfSet (resetFor w) = .next (faultedBy (resetFor w) 5 (encode .bfSet)) ∧
    exec (.bfGet tw) (resetFor w) = .next (faultedBy (resetFor w) 5 (encode (.bfGet tw)))

/-! ## The CRC unit -/

/-- The spec's own inference (its sentence `If tab[i] = TableEntry(p, i) for all i, then CrcStep(tab, r, d) equals the result
of`, marked [derived], 40_crc.md section 1): with the table of `p`, `CrcStep` is bit-at-a-time division of a byte that enters
at the top. For every width of at least 8 bits. -/
def Obligations.CrcStepIsBitwiseDivision : Prop :=
  ∀ (w : Nat), 8 ≤ w → ∀ (p r : BitVec w) (tab : Vector (BitVec w) 256) (d : Byte),
    (∀ i : Fin 256, tab[i] = tableEntry p (BitVec.ofNat 8 i.val)) →
    crcStep tab r d = bitwiseStep p r d

/-- The spec's own inference (40_crc.md section 5, `Facts about the table`, (a) to (e), marked [derived]): the facts about
the table, for every width of at least 8 bits and every polynomial. -/
def Obligations.TableFacts : Prop :=
  ∀ (w : Nat), 8 ≤ w → ∀ (p : BitVec w),
    tableEntry p 0 = 0 ∧ tableEntry p 1 = p ∧
    (∀ a b : Byte, tableEntry p (a ^^^ b) = tableEntry p a ^^^ tableEntry p b) ∧
    (∀ i : Byte, tableEntry (0 : BitVec w) i = 0) ∧
    crcStep (buildTable p) 0 0 = 0 ∧
    (∀ d : Byte, crcStep (buildTable p) 0 d = (buildTable p)[d.toNat]'d.isLt)

/-- The spec's own inference (40_crc.md section 1, `The case W = 8`, marked [derived]): for `W = 8` the step is a table
lookup. -/
def Obligations.EightBitStepIsLookup : Prop :=
  ∀ (tab : Vector (BitVec 8) 256) (r d : BitVec 8), crcStep tab r d = tab[(d ^^^ r).toNat]'(d ^^^ r).isLt

/-- The golden values over "123456789", for the four widths: values the spec derived by evaluating its own rules (40_crc.md
section 5, `Golden test`, marked [derived]). -/
def Obligations.GoldenChecksums : Prop :=
  crcCompute (buildTable (0x07 : BitVec 8)) [0x31, 0x32, 0x33, 0x34, 0x35, 0x36, 0x37, 0x38, 0x39] 0 = 0xF4 ∧
  crcCompute (buildTable (0x1021 : BitVec 16)) [0x31, 0x32, 0x33, 0x34, 0x35, 0x36, 0x37, 0x38, 0x39] 0 = 0x31C3 ∧
  crcCompute (buildTable (0x04C11DB7 : BitVec 32)) [0x31, 0x32, 0x33, 0x34, 0x35, 0x36, 0x37, 0x38, 0x39] 0
    = 0x89A1897F ∧
  crcCompute (buildTable (0x42F0E1EBA9EA3693 : BitVec 64)) [0x31, 0x32, 0x33, 0x34, 0x35, 0x36, 0x37, 0x38, 0x39] 0
    = 0x6C40DF5F0B497347

/-- R115: computing over a concatenation is computing over the parts in turn, for every table. -/
def Obligations.ComputeStreams : Prop :=
  ∀ (w : Nat) (tab : Vector (BitVec w) 256) (s₁ s₂ : List Byte) (init : BitVec w),
    crcCompute tab (s₁ ++ s₂) init = crcCompute tab s₂ (crcCompute tab s₁ init)

/-- R107: `CRC.BUILD` sets the table of the polynomial in `ARG0`, `CRC_POLY` and `TV`, all of them and nothing else, whether or
not a table was built before (R108); a polynomial with a bit at or above `W` raises cause 3. -/
def Obligations.BuildSetsTableAndPolynomial : Prop :=
  ∀ s : State,
    (s.arg0.toNat < 2 ^ s.crc.width.bits →
      ∃ (p : BitVec s.crc.width.bits) (table : Vector (BitVec s.crc.width.bits) 256),
        p.toNat = s.arg0.toNat ∧
        (∀ i : Fin 256, table[i] = tableEntry p (BitVec.ofNat 8 i.val)) ∧
        exec .crcBuild s = .next { s with
          crc := { width := s.crc.width, poly := p, table := table }
          status := { s.status with tv := true } }) ∧
    (s.arg0.toNat ≥ 2 ^ s.crc.width.bits → exec .crcBuild s = .next (faultedBy s 3 0x00000001))

/-- R111, R112: `CRC.CMPB` tests `TV`, the operand's width and the range, in that order and on integers; otherwise it puts
`CrcCompute` of the range's bytes in `RES`, reading each byte once in ascending order, and changes nothing else. -/
def Obligations.CmpbComputesTheRange : Prop :=
  ∀ s : State,
    (s.status.tv = false → exec .crcCmpb s = .next (faultedBy s 2 0x00000002)) ∧
    (s.status.tv = true → s.arg0.toNat ≥ 2 ^ s.crc.width.bits →
      exec .crcCmpb s = .next (faultedBy s 3 0x00000002)) ∧
    (s.status.tv = true → s.arg0.toNat < 2 ^ s.crc.width.bits →
      s.arg1.toNat + s.arg2.toNat > s.buflen.toNat → exec .crcCmpb s = .next (faultedBy s 7 0x00000002)) ∧
    (s.status.tv = true → s.arg0.toNat < 2 ^ s.crc.width.bits →
      s.arg1.toNat + s.arg2.toNat ≤ s.buflen.toNat →
      exec .crcCmpb s = .next { s with
        res := (crcCompute s.crc.table
          ((List.range s.arg2.toNat).map (fun i => Memory.read s.mem (s.arg1.toNat + i)))
          (s.arg0.setWidth s.crc.width.bits)).setWidth 64
        bus := s.bus ++ (List.range s.arg2.toNat).map (fun i => readT (s.arg1.toNat + i) 1) })

/-- R114: `CRC.CMPI imm8` tests `TV` and the operand's width, in that order; otherwise it puts one `CrcStep` in `RES` and
changes nothing else. -/
def Obligations.CmpiAdvancesTheRemainder : Prop :=
  ∀ (s : State) (imm8 : Byte),
    (s.status.tv = false →
      exec (.crcCmpi imm8) s = .next (faultedBy s 2 (0x00000003 ||| (imm8.setWidth 32 <<< 16)))) ∧
    (s.status.tv = true → s.arg0.toNat ≥ 2 ^ s.crc.width.bits →
      exec (.crcCmpi imm8) s = .next (faultedBy s 3 (0x00000003 ||| (imm8.setWidth 32 <<< 16)))) ∧
    (s.status.tv = true → s.arg0.toNat < 2 ^ s.crc.width.bits →
      exec (.crcCmpi imm8) s = .next { s with
        res := (crcStep s.crc.table (s.arg0.setWidth s.crc.width.bits) imm8).setWidth 64 })

/-- R176: the remainder a CRC compute leaves in `RES` passes the operand check when the host carries it to `ARG0`. -/
def Obligations.RemainderPassesTheOperandCheck : Prop :=
  ∀ (s t : State) (imm8 : Byte), s.status.f = false →
    (exec .crcCmpb s = .next t ∨ exec (.crcCmpi imm8) s = .next t) → t.status.f = false →
    t.res.toNat < 2 ^ t.crc.width.bits

/-- The spec's own inference (40_crc.md section 5, the second consequence of `Streamability`, marked [derived]): a `CRC.CMPB`
over `len1 + len2` bytes leaves in `RES` what one over the first `len1` and then, with `RES` carried to `ARG0`, one over the
last `len2` leave. -/
def Obligations.RangesCompose : Prop :=
  ∀ (s : State) (len1 len2 : Nat), s.status.tv = true → s.arg0.toNat < 2 ^ s.crc.width.bits →
    s.arg1.toNat + (len1 + len2) ≤ s.buflen.toNat →
    ∃ a b c,
      exec .crcCmpb { s with arg2 := BitVec.ofNat 64 (len1 + len2) } = .next a ∧
      exec .crcCmpb { s with arg2 := BitVec.ofNat 64 len1 } = .next b ∧
      exec .crcCmpb { b with
        arg0 := b.res
        arg1 := BitVec.ofNat 64 (s.arg1.toNat + len1)
        arg2 := BitVec.ofNat 64 len2 } = .next c ∧
      c.res = a.res

/-- R88, and the spec's own inference (the first consequence of `Streamability`, marked [derived]): the pseudo-instruction
`ComputeSeq`, which issues one `CRC.CMPI` a byte and carries `RES` to `ARG0` after each, leaves `CrcCompute` of its bytes in
`ARG0`, whatever the bytes and the initial remainder, given or the default 0; for a list that is not empty it is also in `RES`
and is what the host reads last, and for the empty list nothing is read and no command is issued. The table, the status and
the buffer stay as they were. The buffer bound is the duty R226 (a) (assumption log 10). -/
def Obligations.ComputeSeqComputes : Prop :=
  ∀ (s : State) (bytes : List Nat) (init : Option Nat) (rest : List Action),
    s.status.f = false → s.status.tv = true → s.buflen.toNat ≤ s.bound → init.getD 0 < 2 ^ s.crc.width.bits →
    (∀ b ∈ bytes, b < 256) →
    ∃ (acts : List Action) (t : State),
      assembleAll (Pseudo.expand (.computeSeq bytes init)) = some acts ∧
      Host.Core.run core acts.length { s with program := acts ++ rest } = .next t ∧
      t.arg0 =
        (crcCompute s.crc.table (bytes.map (BitVec.ofNat 8)) (BitVec.ofNat s.crc.width.bits (init.getD 0))).setWidth 64 ∧
      (bytes ≠ [] → t.res = t.arg0 ∧ t.rdata = t.arg0) ∧
      (bytes = [] → t.res = s.res ∧ t.rdata = s.rdata ∧ ∀ c during, Action.command c during ∉ acts) ∧
      t.program = rest ∧ t.crc = s.crc ∧ t.status = s.status ∧ t.mem = s.mem

/-! ## The bit-field unit -/

/-- R140: the checks of `BF.SET` and `BF.GET`, in order, on integers; the first that fails is raised. -/
def Obligations.FieldChecksInOrder : Prop :=
  ∀ (s : State) (tw : ResultWidth),
    (s.arg2.toNat > 64 →
      exec .bfSet s = .next (faultedBy s 4 (encode .bfSet)) ∧
      exec (.bfGet tw) s = .next (faultedBy s 4 (encode (.bfGet tw)))) ∧
    (s.arg2.toNat = 0 →
      exec .bfSet s = .next (faultedBy s 5 (encode .bfSet)) ∧
      exec (.bfGet tw) s = .next (faultedBy s 5 (encode (.bfGet tw)))) ∧
    (s.arg2.toNat ≤ 64 → s.arg2.toNat > tw.bits →
      exec (.bfGet tw) s = .next (faultedBy s 6 (encode (.bfGet tw)))) ∧
    (1 ≤ s.arg2.toNat → s.arg2.toNat ≤ 64 → s.arg1.toNat + s.arg2.toNat > 8 * s.buflen.toNat →
      exec .bfSet s = .next (faultedBy s 7 (encode .bfSet))) ∧
    (1 ≤ s.arg2.toNat → s.arg2.toNat ≤ tw.bits → s.arg1.toNat + s.arg2.toNat > 8 * s.buflen.toNat →
      exec (.bfGet tw) s = .next (faultedBy s 7 (encode (.bfGet tw))))

/-- R148: with legal operands `BF.SET` completes; it sets the field's bits from `ARG0` and changes no other bit of the buffer,
stores to no byte outside its footprint (R62), and changes nothing but the buffer. -/
def Obligations.SetWritesTheField : Prop :=
  ∀ s : State, 1 ≤ s.arg2.toNat → s.arg2.toNat ≤ 64 → s.arg1.toNat + s.arg2.toNat ≤ 8 * s.buflen.toNat →
    ∃ t, exec .bfSet s = .next t ∧
      t = { s with
        mem := t.mem
        bus := s.bus ++ setFootprint s.buflen.toNat s.arg1.toNat s.arg2.toNat } ∧
      (∀ k, Memory.bit t.mem k =
        if s.arg1.toNat ≤ k ∧ k < s.arg1.toNat + s.arg2.toNat then s.arg0.getLsbD (k - s.arg1.toNat)
        else Memory.bit s.mem k) ∧
      (∀ a, (∀ x ∈ setFootprint s.buflen.toNat s.arg1.toNat s.arg2.toNat,
          x.kind = .write → ¬ (x.addr ≤ a ∧ a < x.addr + x.len)) →
        Memory.read t.mem a = Memory.read s.mem a)

/-- R150, R154: with legal operands `BF.GET` completes; `RES` is the field, zeros above it (never sign-extended, R151), read by
the transfers of R62, and nothing else changes. -/
def Obligations.GetReadsTheField : Prop :=
  ∀ (s : State) (tw : ResultWidth), 1 ≤ s.arg2.toNat → s.arg2.toNat ≤ tw.bits →
    s.arg1.toNat + s.arg2.toNat ≤ 8 * s.buflen.toNat →
    ∃ v : Word,
      exec (.bfGet tw) s = .next { s with
        res := v
        bus := s.bus ++ getFootprint s.buflen.toNat s.arg1.toNat s.arg2.toNat } ∧
      ∀ j, v.getLsbD j = (decide (j < s.arg2.toNat) && Memory.bit s.mem (s.arg1.toNat + j))

/-- The spec's own inference (41_bitfield.md section 1, `Reference meaning of a field`, marked [derived]): whatever path is
taken, `BF.GET` returns `GetField` of the buffer as one integer, and `BF.SET` leaves the buffer equal to `SetField` of the
old buffer. -/
def Obligations.FieldsAreSlicesOfTheBuffer : Prop :=
  ∀ s : State, 1 ≤ s.arg2.toNat → s.arg2.toNat ≤ 64 → s.arg1.toNat + s.arg2.toNat ≤ 8 * s.buflen.toNat →
    (∀ tw : ResultWidth, s.arg2.toNat ≤ tw.bits →
      ∃ t, exec (.bfGet tw) s = .next t ∧
        t.res.toNat = getField (bufferValue s.mem s.buflen.toNat) s.arg1.toNat s.arg2.toNat) ∧
    ∃ t, exec .bfSet s = .next t ∧
      bufferValue t.mem s.buflen.toNat =
        setField (bufferValue s.mem s.buflen.toNat) s.arg1.toNat s.arg2.toNat s.arg0.toNat

/-- The round trip, for every buffer length the spec's own inference (41_bitfield.md section 5, marked [derived]): `BF.SET`
then `BF.GET` with the same operands gives the value modulo `2^len`, for every buffer length. -/
def Obligations.SetThenGetRoundTrips : Prop :=
  ∀ (s : State) (tw : ResultWidth), 1 ≤ s.arg2.toNat → s.arg2.toNat ≤ tw.bits →
    s.arg1.toNat + s.arg2.toNat ≤ 8 * s.buflen.toNat →
    ∃ t u, exec .bfSet s = .next t ∧ exec (.bfGet tw) t = .next u ∧
      u.res.toNat = s.arg0.toNat % 2 ^ s.arg2.toNat

/-- R148, and the spec's own inference (41_bitfield.md section 5, `Non-interference`, marked [derived]): a `BF.SET` leaves
every buffer bit outside its field, so a `BF.GET` of a disjoint field returns the same value before and after. -/
def Obligations.DisjointFieldsDoNotInterfere : Prop :=
  ∀ (s : State) (off len : Word) (tw : ResultWidth),
    1 ≤ s.arg2.toNat → s.arg2.toNat ≤ 64 → s.arg1.toNat + s.arg2.toNat ≤ 8 * s.buflen.toNat →
    1 ≤ len.toNat → len.toNat ≤ tw.bits → off.toNat + len.toNat ≤ 8 * s.buflen.toNat →
    (off.toNat + len.toNat ≤ s.arg1.toNat ∨ s.arg1.toNat + s.arg2.toNat ≤ off.toNat) →
    ∃ t a b, exec .bfSet s = .next t ∧
      (∀ k, k < s.arg1.toNat ∨ k ≥ s.arg1.toNat + s.arg2.toNat → Memory.bit t.mem k = Memory.bit s.mem k) ∧
      exec (.bfGet tw) { s with arg1 := off, arg2 := len } = .next a ∧
      exec (.bfGet tw) { t with arg1 := off, arg2 := len } = .next b ∧
      a.res = b.res

/-- R162: where offset and length are multiples of 8, the fast path and the slow path give the same buffer and the same
value. -/
def Obligations.FastAndSlowPathsAgree : Prop :=
  ∀ (s : State) (off len : Nat) (v : Word), off % 8 = 0 → len % 8 = 0 → 1 ≤ len → len ≤ 64 →
    off + len ≤ 8 * s.buflen.toNat →
    (∀ a, Memory.read (setFast off len v s).mem a = Memory.read (setSlow off len v s).mem a) ∧
    (getFast off len s).1 = (getSlow off len s).1

/-- The spec's own inference (41_bitfield.md section 3, `Source bits above the field are ignored`, marked [derived]):
`BF.SET` gives the same buffer for `v` and for `v mod 2^len`. -/
def Obligations.SourceBitsAboveTheFieldAreIgnored : Prop :=
  ∀ s : State, 1 ≤ s.arg2.toNat → s.arg2.toNat ≤ 64 → s.arg1.toNat + s.arg2.toNat ≤ 8 * s.buflen.toNat →
    ∃ t u, exec .bfSet s = .next t ∧
      exec .bfSet { s with arg0 := BitVec.ofNat 64 (s.arg0.toNat % 2 ^ s.arg2.toNat) } = .next u ∧
      ∀ a, Memory.read t.mem a = Memory.read u.mem a

/-- Derived from R134 and R36: the value of `BF.GET` depends on its operands and the field's bits only; two machines that agree
on them, whatever else they hold, get the same result. -/
def Obligations.GetDependsOnTheFieldOnly : Prop :=
  ∀ (s s' t t' : State) (tw : ResultWidth),
    s.arg1 = s'.arg1 → s.arg2 = s'.arg2 → s.buflen = s'.buflen → s.status.f = false → s'.status.f = false →
    (∀ k, s.arg1.toNat ≤ k → k < s.arg1.toNat + s.arg2.toNat → Memory.bit s.mem k = Memory.bit s'.mem k) →
    exec (.bfGet tw) s = .next t → exec (.bfGet tw) s' = .next t' →
    t.status.f = t'.status.f ∧ (t.status.f = false → t.res = t'.res)

/-! ## Faults -/

/-- R196: of the conditions of R190 that hold for a command, the one with the lowest code is reported, with the command word
in `FINFO`, and only that one; a command none of them holds for runs without a fault. -/
def Obligations.LowestCauseIsReported : Prop :=
  ∀ (s : State) (c : CmdWord), s.status.f = false →
    ((∃ e, decode c = .error e) → cmdIssue c s = .next (faultedBy s 1 c)) ∧
    ∀ i, decode c = .ok i →
      (∀ cause : Cause, faultCondition i s cause →
        (∀ other : Cause, faultCondition i s other → cause.code.toNat ≤ other.code.toNat) →
        cmdIssue c s = .next (faultedBy s cause.code.toNat c)) ∧
      ((∀ cause : Cause, ¬ faultCondition i s cause) → ∃ t, cmdIssue c s = .next t ∧ t.status.f = false)

/-- R201: a faulting operation has exactly the effect of fault entry (R200): no transfer, no result, no byte, no table entry
changes. So for a command, and for a register write and a register read (which returns 0 to the host). -/
def Obligations.FaultsAreAllOrNothing : Prop :=
  ∀ s t : State, s.status.f = false → t.status.f = true →
    (∀ c, cmdIssue c s = .next t →
      ∃ cause : Cause, t = { s with
        status := { f := true, tv := s.status.tv, cause := cause.code }, finfo := c.setWidth 64 }) ∧
    (∀ n v, regWrite n v s = t →
      ∃ info : Word, info.toNat = 2 ^ 32 + n.toNat ∧
        t = { s with status := { f := true, tv := s.status.tv, cause := 8 }, finfo := info }) ∧
    (∀ n, regRead n s = t →
      ∃ info : Word, info.toNat = 2 ^ 32 + n.toNat ∧
        t = { s with status := { f := true, tv := s.status.tv, cause := 8 }, finfo := info, rdata := 0 })

/-- R203: while `F = 1` every command and every register write is ignored, and every read works as it does with `F = 0`, an
unmapped one returning 0 and raising nothing; `CAUSE` and `FINFO` keep the first fault, and the run has gone wrong. -/
def Obligations.FaultedStateIgnoresCommandsAndWrites : Prop :=
  ∀ (s : State) (rest : List Action), s.status.f = true →
    s.goneWrong = true ∧
    (∀ c, s.program = .command c [] :: rest → step s = .next { s with program := rest, bus := [] }) ∧
    (∀ n src, s.program = .regWrite n src :: rest → step s = .next { s with program := rest, bus := [] }) ∧
    (∀ n, s.program = .regRead n :: rest →
      ∃ t, step s = .next t ∧ t = regRead n { s with program := rest, bus := [] } ∧
        t.status = s.status ∧ t.finfo = s.finfo ∧ (Reg.ofNumber n = none → t.rdata = 0))

/-- R204: a step out of the faulted state is a reset, which also drops the table; every other step keeps the first fault, its
cause and its information. -/
def Obligations.OnlyResetLeavesTheFaultedState : Prop :=
  ∀ s t : State, step s = .next t → s.status.f = true →
    ((∃ rest, s.program = .reset :: rest) ∧ t.status = { f := false, tv := false, cause := 0 }) ∨
    (t.status = s.status ∧ t.finfo = s.finfo)

/-! ## Memory -/

/-- R53: no instruction makes an access at an index at or above `BUFLEN`. -/
def Obligations.AccessesStayInTheBuffer : Prop :=
  ∀ (i : Instr) (s : State), ∃ (t : State) (ts : List Transfer), exec i s = .next t ∧ t.bus = s.bus ++ ts ∧
    ∀ x ∈ ts, x.addr + x.len ≤ s.buflen.toNat

/-- R55: every transfer is little-endian: a read returns the sum of its bytes times powers of 256, a write stores byte `k` of
the value at index `a + k` and no other byte. -/
def Obligations.TransfersAreLittleEndian : Prop :=
  ∀ (m : Memory) (a n : Nat) (v : Word), n ≤ 8 →
    (Memory.load m a n).toNat = ((List.range n).map (fun k => (Memory.read m (a + k)).toNat * 2 ^ (8 * k))).sum ∧
    (∀ k < n, Memory.read (Memory.store m a n v) (a + k) = v.extractLsb' (8 * k) 8) ∧
    (∀ x, x < a ∨ a + n ≤ x → Memory.read (Memory.store m a n v) x = Memory.read m x)

/-- Derived from R60 and the model's own form of the open order (assumption log 8): whatever the order of the byte accesses
inside a transfer, each byte being accessed exactly once, the buffer after it is the same, as data. -/
def Obligations.ByteOrderWithinATransferIsFree : Prop :=
  ∀ (m : Memory) (a n : Nat) (v : Word) (order : List Nat), Memory.wf m → n ≤ 8 → order.Perm (List.range n) →
    Memory.storeInOrder m a v order = Memory.store m a n v

/-- Derived from R67 and R226, by the model's own treatment of a broken duty (assumption logs 9 and 10): a step that issues a
command has a next state exactly when the command is ignored (`F = 1`) or `BUFLEN` is not larger than the memory bound, no
other master's access during it is unbound, and none races with the instruction's footprint (another agent writes a byte of
it, or accesses a byte it writes); an instruction that would run with `BUFLEN` larger than the memory bound stops so. -/
def Obligations.RacesAndUnboundBytesStop : Prop :=
  ∀ (s t : State) (c : CmdWord) (during : List ForeignAccess) (rest : List Action),
    s.program = .command c during :: rest → cmdIssue c { s with program := rest, bus := [] } = .next t →
    ((∃ u, step s = .next u) ↔
      (s.status.f = true ∨ s.buflen.toNat ≤ s.bound) ∧ (∀ y ∈ during, y.addr < s.bound) ∧
      ¬ ∃ y ∈ during, ∃ x ∈ t.bus, (x.addr ≤ y.addr ∧ y.addr < x.addr + x.len) ∧
        (y.kind = .write ∨ x.kind = .write)) ∧
    (s.status.f = false → s.bound < s.buflen.toNat → step s = .fault .bufferNotBound)

/-- R66: other masters' reads during a `CRC.CMPB` or a `BF.GET` conflict with nothing: the step is what it is without them. -/
def Obligations.ConcurrentReadsAreHarmless : Prop :=
  ∀ (s : State) (c : CmdWord) (i : Instr) (during : List ForeignAccess) (rest : List Action),
    decode c = .ok i → (i = .crcCmpb ∨ ∃ tw, i = .bfGet tw) →
    (∀ y ∈ during, y.kind = .read ∧ y.addr < s.bound) →
    step { s with program := .command c during :: rest } = step { s with program := .command c [] :: rest }

/-! ## The whole machine -/

/-- Derived from R173, with what this model's step does around it (assumption logs 2, 9, 10 and 15): when the next action is a
command word that decodes, `F = 0` and `BUFLEN` is not larger than the memory bound, the step is the instruction's `exec` on
the state without that action and with an empty trace, judged by the platform; with no other master acting it is `exec`'s
next state. -/
def Obligations.StepRunsTheDecodedInstruction : Prop :=
  ∀ (s : State) (c : CmdWord) (during : List ForeignAccess) (rest : List Action) (i : Instr),
    s.program = .command c during :: rest → s.status.f = false → s.buflen.toNat ≤ s.bound → decode c = .ok i →
    ∃ t, exec i { s with program := rest, bus := [] } = .next t ∧
      step s = platform during t ∧ (during = [] → step s = .next t)

/-- Derived from R173 and the model's own program list (assumption logs 2 and 10). The host's way to put a command word where
the step takes its next one: the very next step runs that instruction on the state as it is (the trace of the last operation
apart). -/
def Obligations.FetchWordRunsItsInstruction : Prop :=
  ∀ (s : State) (i : Instr), s.status.f = false → s.buflen.toNat ≤ s.bound →
    ∃ t, exec i { s with bus := [] } = .next t ∧ step (State.withFetchWord s 32 (encode i).toNat) = .next t

/-- Derived from R221 and from the model's own step (assumption log 13): with no operation issued `CORE` is idle: a step
changes nothing. -/
def Obligations.IdleWithoutAnOperation : Prop :=
  ∀ s : State, s.program = [] → step s = .next s

/-- R21, R30: after any instruction, faulting or not, the operand registers and `BUFLEN` hold what they held; nor does any
instruction touch what is outside `CORE` but the bytes of the buffer. -/
def Obligations.InstructionsKeepTheirOperands : Prop :=
  ∀ (i : Instr) (s : State), ∃ t, exec i s = .next t ∧
    t.arg0 = s.arg0 ∧ t.arg1 = s.arg1 ∧ t.arg2 = s.arg2 ∧ t.buflen = s.buflen ∧
    t.program = s.program ∧ t.bound = s.bound ∧ t.rdata = s.rdata ∧ t.draws = s.draws

/-- R4: no bit-field instruction reads or writes the polynomial and the table, and no CRC instruction writes the buffer; of
them only `CRC.CMPB` reads it. -/
def Obligations.UnitsAreIndependent : Prop :=
  ∀ (s : State) (crc : CrcEngine) (mem : Memory),
    (∀ i, i = .bfSet ∨ (∃ tw, i = .bfGet tw) →
      ∃ t, exec i s = .next t ∧ t.crc = s.crc ∧ exec i { s with crc := crc } = .next { t with crc := crc }) ∧
    (∀ i, i = .crcBuild ∨ i = .crcCmpb ∨ (∃ d, i = .crcCmpi d) → ∃ t, exec i s = .next t ∧ t.mem = s.mem) ∧
    (∀ i, i = .crcBuild ∨ (∃ d, i = .crcCmpi d) →
      ∃ t, exec i s = .next t ∧ exec i { s with mem := mem } = .next { t with mem := mem })

/-- R26: `TV` becomes 1 only by a `CRC.BUILD` and stays 1 until reset. -/
def Obligations.TableValidUntilReset : Prop :=
  ∀ s t : State, step s = .next t →
    (s.status.tv = true → t.status.tv = false → ∃ rest, s.program = .reset :: rest) ∧
    (s.status.tv = false → t.status.tv = true →
      ∃ c during rest, s.program = .command c during :: rest ∧ decode c = .ok .crcBuild)

/-- R32, R108: only `CRC.BUILD` (and reset, which makes them unspecified) changes the polynomial or the table; nothing changes
the instance's width (R8). -/
def Obligations.OnlyBuildWritesTheTable : Prop :=
  ∀ s t : State, step s = .next t →
    t.crc.width = s.crc.width ∧
    (t.crc = s.crc ∨ (∃ rest, s.program = .reset :: rest) ∨
      ∃ c during rest, s.program = .command c during :: rest ∧ decode c = .ok .crcBuild)

/-- R113, R154: `CRC.CMPB` and `BF.GET` can be repeated: the second run gives the same result and leaves the same state but for
the trace. -/
def Obligations.ReadingInstructionsRepeat : Prop :=
  ∀ (s t : State) (i : Instr), (i = .crcCmpb ∨ ∃ tw, i = .bfGet tw) → exec i s = .next t → t.status.f = false →
    exec i { t with bus := s.bus } = .next t

/-! ## The register port -/

/-- R24, R33: the fields of `STATUS` and `CONFIG` as they read; every other bit reads 0; the `FAULT` output is `STATUS.F`. -/
def Obligations.StatusAndConfigRead : Prop :=
  ∀ s : State,
    (∀ k, s.status.word.getLsbD k =
      if k = 0 then s.status.f else if k = 1 then s.status.tv
      else if 4 ≤ k ∧ k ≤ 7 then s.status.cause.getLsbD (k - 4) else false) ∧
    s.faultOut = s.status.word.getLsbD 0 ∧
    configWord .w8 = 0 ∧ configWord .w16 = 1 ∧ configWord .w32 = 2 ∧ configWord .w64 = 3

/-- Derived from R170, with two choices of the model: what a register read returns and what it changes: an ordinary register
gives its value; `CRC_POLY` and the table give theirs, zero-extended, when a table is built, and otherwise a free value with
bits `63:W` zero, another at each read; an unmapped number gives 0 and raises `BadRegister` when `F = 0`. Nothing else
changes. That the free value is draw number `s.draws` and that a draw steps the count is assumption log 5; that the value
returned goes to `rdata` is assumption log 3. -/
def Obligations.RegReadReturns : Prop :=
  ∀ s : State,
    regRead 0 s = { s with rdata := s.arg0 } ∧ regRead 1 s = { s with rdata := s.arg1 } ∧
    regRead 2 s = { s with rdata := s.arg2 } ∧ regRead 3 s = { s with rdata := s.res } ∧
    regRead 4 s = { s with rdata := s.status.word } ∧ regRead 5 s = { s with rdata := s.finfo } ∧
    regRead 6 s = { s with rdata := s.buflen } ∧ regRead 8 s = { s with rdata := configWord s.crc.width } ∧
    (s.status.tv = true →
      regRead 7 s = { s with rdata := s.crc.poly.setWidth 64 } ∧
      ∀ i : Fin 256, regRead (BitVec.ofNat 32 (256 + i.val)) s = { s with rdata := s.crc.table[i].setWidth 64 }) ∧
    (s.status.tv = false → ∀ n : CmdWord, n = 7 ∨ (256 ≤ n.toNat ∧ n.toNat ≤ 511) →
      ∃ u : Word, (∀ k ≥ s.crc.width.bits, u.getLsbD k = false) ∧
        u = ((Config.freeValue s.draws).setWidth s.crc.width.bits).setWidth 64 ∧
        regRead n s = { s with rdata := u, draws := s.draws + 1 }) ∧
    (∀ n : CmdWord, 9 ≤ n.toNat → n.toNat < 256 ∨ 512 ≤ n.toNat →
      (s.status.f = true → regRead n s = { s with rdata := 0 }) ∧
      (s.status.f = false → ∃ info : Word, info.toNat = 2 ^ 32 + n.toNat ∧
        regRead n s = { s with
          rdata := 0, finfo := info, status := { f := true, tv := s.status.tv, cause := 8 } }))

/-- R171: what a register write does: nothing while `F = 1`; it sets one of the four writable registers; every other number
raises `BadRegister` with `FINFO = 2^32 + n`. -/
def Obligations.RegWriteWrites : Prop :=
  ∀ (s : State) (v : Word),
    (s.status.f = true → ∀ n, regWrite n v s = s) ∧
    (s.status.f = false →
      regWrite 0 v s = { s with arg0 := v } ∧ regWrite 1 v s = { s with arg1 := v } ∧
      regWrite 2 v s = { s with arg2 := v } ∧ regWrite 6 v s = { s with buflen := v } ∧
      ∀ n : CmdWord, n ≠ 0 → n ≠ 1 → n ≠ 2 → n ≠ 6 → ∃ info : Word, info.toNat = 2 ^ 32 + n.toNat ∧
        regWrite n v s = { s with
          finfo := info, status := { f := true, tv := s.status.tv, cause := 8 } })
end

