-- ==== Sys2Proof/Laws/Memory.lean ====
section
/-! SUPPORT. The laws of the buffer's bytes: read after write, the canonical form and that every operation keeps it, equal
reads give equal memories, and what one transfer reads and stores, byte by byte and bit by bit. -/

namespace Sys2Proof.Machine

/-! ## Bytes -/

@[simp] theorem Memory.read_nil (a : Nat) : Memory.read [] a = Memory.unlisted := rfl

theorem Memory.read_cons (c : Host.Cell) (m : Memory) (a : Nat) :
    Memory.read (c :: m) a = if c.1 = a then c.2 else Memory.read m a := rfl

theorem Memory.read_erase (m : Memory) (a x : Nat) :
    (m.erase a).read x = if a = x then Memory.unlisted else m.read x := by
  induction m with
  | nil => simp [Memory.erase]
  | cons c m ih =>
    by_cases hc : c.1 = a
    · rw [Memory.erase, List.filter_cons_of_neg (by simp [hc]), ← Memory.erase, ih, Memory.read_cons, hc]
      split <;> rfl
    · rw [Memory.erase, List.filter_cons_of_pos (by simp [hc]), ← Memory.erase, Memory.read_cons, ih,
        Memory.read_cons]
      split <;> split <;> simp_all

theorem Memory.read_insert (a : Nat) (v : Byte) (m : Memory) (x : Nat) (h : m.read a = Memory.unlisted)
    (hm : ∀ c ∈ m, c.1 ≠ a) : (Memory.insert a v m).read x = if a = x then v else m.read x := by
  induction m with
  | nil => simp [Memory.insert, Memory.read_cons]
  | cons c m ih =>
    have hca : c.1 ≠ a := hm c (by simp)
    rw [Memory.insert]
    split
    · rw [Memory.read_cons]
    · rw [Memory.read_cons, ih (by rwa [Memory.read_cons, if_neg hca] at h)
        (fun d hd => hm d (List.mem_cons_of_mem _ hd)), Memory.read_cons]
      split <;> split <;> simp_all

theorem Memory.erase_no_entry (m : Memory) (a : Nat) : ∀ c ∈ m.erase a, c.1 ≠ a := by
  intro c hc
  simpa [Memory.erase] using (List.mem_filter.mp hc).2

/-- Read after write, at the same index and at any other. -/
theorem Memory.read_write (m : Memory) (a : Nat) (v : Byte) (x : Nat) :
    (m.write a v).read x = if a = x then v else m.read x := by
  rw [Memory.write]
  split
  · next hv => rw [Memory.read_erase, hv]
  · rw [Memory.read_insert _ _ _ _ (by simp [Memory.read_erase]) (m.erase_no_entry a), Memory.read_erase]
    split <;> rfl

@[simp] theorem Memory.read_write_same (m : Memory) (a : Nat) (v : Byte) : (m.write a v).read a = v := by
  simp [Memory.read_write]

theorem Memory.read_write_other (m : Memory) {a x : Nat} (v : Byte) (h : a ≠ x) :
    (m.write a v).read x = m.read x := by
  simp [Memory.read_write, h]

/-! ## The canonical form -/

theorem Memory.wf_nil : Memory.wf [] := by simp [Memory.wf]

theorem Memory.wf_erase {m : Memory} (h : Memory.wf m) (a : Nat) : Memory.wf (m.erase a) :=
  ⟨h.1.filter _, fun c hc => h.2 c (List.mem_filter.mp hc).1⟩

theorem Memory.mem_insert {a : Nat} {v : Byte} {m : Memory} {c : Host.Cell} (h : c ∈ Memory.insert a v m) :
    c = (a, v) ∨ c ∈ m := by
  induction m with
  | nil => simpa [Memory.insert] using h
  | cons d m ih =>
    rw [Memory.insert] at h
    split at h
    · simpa using h
    · rcases List.mem_cons.mp h with rfl | h
      · simp
      · rcases ih h with h | h <;> simp [h]

theorem Memory.wf_insert {a : Nat} {v : Byte} {m : Memory} (h : Memory.wf m) (hv : v ≠ Memory.unlisted)
    (hm : ∀ c ∈ m, c.1 ≠ a) : Memory.wf (Memory.insert a v m) := by
  induction m with
  | nil => simpa [Memory.wf, Memory.insert] using hv
  | cons d m ih =>
    obtain ⟨hp, hu⟩ := h
    have hpm := List.pairwise_cons.mp hp
    have hd : d.1 ≠ a := hm d (by simp)
    rw [Memory.insert]
    split
    · next hlt =>
      refine ⟨List.pairwise_cons.mpr ⟨?_, hp⟩, ?_⟩
      · intro c hc
        rcases List.mem_cons.mp hc with rfl | hc
        · exact hlt
        · exact lt_trans hlt (hpm.1 c hc)
      · intro c hc
        rcases List.mem_cons.mp hc with rfl | hc
        · exact hv
        · exact hu c hc
    · next hlt =>
      have ihm := ih ⟨hpm.2, fun c hc => hu c (List.mem_cons_of_mem _ hc)⟩
        (fun c hc => hm c (List.mem_cons_of_mem _ hc))
      refine ⟨List.pairwise_cons.mpr ⟨?_, ihm.1⟩, ?_⟩
      · intro c hc
        rcases Memory.mem_insert hc with rfl | hc
        · show d.1 < a; omega
        · exact hpm.1 c hc
      · intro c hc
        rcases List.mem_cons.mp hc with rfl | hc
        · exact hu c (by simp)
        · exact ihm.2 c hc

theorem Memory.wf_write {m : Memory} (h : Memory.wf m) (a : Nat) (v : Byte) : Memory.wf (m.write a v) := by
  rw [Memory.write]
  split
  · exact Memory.wf_erase h a
  · next hv => exact Memory.wf_insert (Memory.wf_erase h a) hv (m.erase_no_entry a)

theorem Memory.wf_store {m : Memory} (h : Memory.wf m) (a n : Nat) (v : Word) : Memory.wf (m.store a n v) := by
  induction n generalizing m a v with
  | zero => exact h
  | succ n ih => exact ih (Memory.wf_write h a _) _ _

theorem Memory.wf_fill {m : Memory} (h : Memory.wf m) (a : Nat) (image : List Byte) :
    Memory.wf (m.fill a image) := by
  induction image generalizing m a with
  | nil => exact h
  | cons v image ih => exact ih (Memory.wf_write h a v) _

theorem Memory.wf_storeInOrder {m : Memory} (h : Memory.wf m) (a : Nat) (v : Word) (order : List Nat) :
    Memory.wf (m.storeInOrder a v order) := by
  induction order generalizing m with
  | nil => exact h
  | cons k order ih => exact ih (Memory.wf_write h _ _)

theorem Memory.read_eq_unlisted {m : Memory} {a : Nat} (h : ∀ c ∈ m, a < c.1) : m.read a = Memory.unlisted := by
  induction m with
  | nil => rfl
  | cons c m ih =>
    have := h c (by simp)
    rw [Memory.read_cons, if_neg (by omega), ih (fun d hd => h d (List.mem_cons_of_mem _ hd))]

/-- Memories in canonical form that read alike are equal: equal memories are equal data. -/
theorem Memory.eq_of_read_eq {m m' : Memory} (h : Memory.wf m) (h' : Memory.wf m')
    (hr : ∀ a, m.read a = m'.read a) : m = m' := by
  induction m generalizing m' with
  | nil =>
    cases m' with
    | nil => rfl
    | cons c m' =>
      have := hr c.1
      simp only [Memory.read_nil, Memory.read_cons, if_true] at this
      exact absurd this.symm (h'.2 c (by simp))
  | cons c m ih =>
    obtain ⟨hp, hu⟩ := h
    have hpm := List.pairwise_cons.mp hp
    cases m' with
    | nil =>
      have := hr c.1
      simp only [Memory.read_nil, Memory.read_cons, if_true] at this
      exact absurd this (hu c (by simp))
    | cons d m' =>
      obtain ⟨hp', hu'⟩ := h'
      have hpm' := List.pairwise_cons.mp hp'
      have hcd : c.1 = d.1 := by
        rcases lt_trichotomy c.1 d.1 with hlt | heq | hlt
        · have := hr c.1
          rw [Memory.read_cons, if_pos rfl, Memory.read_eq_unlisted] at this
          · exact absurd this (hu c (by simp))
          · intro e he
            rcases List.mem_cons.mp he with rfl | he
            · exact hlt
            · exact lt_trans hlt (hpm'.1 e he)
        · exact heq
        · have := hr d.1
          rw [Memory.read_cons (c := d), if_pos rfl, Memory.read_eq_unlisted] at this
          · exact absurd this.symm (hu' d (by simp))
          · intro e he
            rcases List.mem_cons.mp he with rfl | he
            · exact hlt
            · exact lt_trans hlt (hpm.1 e he)
      have hv : c.2 = d.2 := by
        have := hr c.1
        simpa [Memory.read_cons, hcd] using this
      have hm : m = m' := by
        refine ih ⟨hpm.2, fun e he => hu e (List.mem_cons_of_mem _ he)⟩
          ⟨hpm'.2, fun e he => hu' e (List.mem_cons_of_mem _ he)⟩ (fun a => ?_)
        by_cases ha : c.1 = a
        · rw [Memory.read_eq_unlisted (fun e he => ha ▸ hpm.1 e he),
            Memory.read_eq_unlisted (fun e he => by have := hpm'.1 e he; omega)]
        · have := hr a
          rwa [Memory.read_cons, Memory.read_cons, if_neg ha, if_neg (by omega)] at this
      rw [hm, Prod.ext hcd hv]

/-! ## Transfers, byte by byte -/

/-- What a store leaves at every index (R55): byte `k` of `v` at `a + k`, the other bytes as they were. -/
theorem Memory.read_store (m : Memory) (a n : Nat) (v : Word) (x : Nat) :
    (m.store a n v).read x =
      if a ≤ x ∧ x < a + n then (v >>> (8 * (x - a))).setWidth 8 else m.read x := by
  induction n generalizing m a v with
  | zero => rw [Memory.store, if_neg (by omega)]
  | succ n ih =>
    rw [Memory.store, ih, Memory.read_write]
    by_cases h0 : a = x
    · subst h0
      rw [if_neg (by omega), if_pos rfl, if_pos (by omega)]
      simp
    · by_cases h1 : a + 1 ≤ x ∧ x < a + 1 + n
      · rw [if_pos h1, if_pos (by omega), ← BitVec.shiftRight_add]
        congr 2; omega
      · rw [if_neg h1, if_neg h0, if_neg (by omega)]

theorem Memory.read_fill (m : Memory) (a : Nat) (image : List Byte) (x : Nat) :
    (m.fill a image).read x = if a ≤ x then image.getD (x - a) (m.read x) else m.read x := by
  induction image generalizing m a with
  | nil => simp [Memory.fill]
  | cons v image ih =>
    rw [Memory.fill, ih, Memory.read_write]
    by_cases h0 : a = x
    · subst h0; simp
    · by_cases h1 : a + 1 ≤ x
      · have : x - a = (x - (a + 1)) + 1 := by omega
        rw [if_pos h1, if_neg h0, if_pos (by omega), this, List.getD_cons_succ]
      · rw [if_neg h1, if_neg h0, if_neg (by omega)]

/-! ## Transfers, bit by bit -/

/-- The bits of a read (R55, R56): bit `j` of the value is buffer bit `8a + j`. -/
theorem Memory.getLsbD_load (m : Memory) (a n j : Nat) (hn : n ≤ 8) :
    (m.load a n).getLsbD j = (decide (j < 8 * n) && m.bit (8 * a + j)) := by
  induction n generalizing a j with
  | zero => simp [Memory.load]
  | succ n ih =>
    rw [Memory.load, BitVec.getLsbD_or, BitVec.getLsbD_setWidth, BitVec.getLsbD_shiftLeft, ih _ _ (by omega)]
    by_cases h : j < 8
    · have h1 : (8 * a + j) / 8 = a := by omega
      have h2 : (8 * a + j) % 8 = j := by omega
      simp only [Memory.bit, h1, h2, h, decide_true, Bool.not_true, Bool.and_false, Bool.false_and, Bool.or_false]
      simp [show j < 64 by omega, show j < 8 * (n + 1) by omega]
    · have hb : (m.read a).getLsbD j = false := BitVec.getLsbD_of_ge _ _ (by omega)
      have h3 : 8 * (a + 1) + (j - 8) = 8 * a + j := by omega
      rw [hb, h3]
      by_cases hj : j < 8 * (n + 1)
      · simp [h, show j < 64 by omega, show j - 8 < 8 * n by omega, hj]
      · simp [show ¬ j - 8 < 8 * n by omega, hj]

/-- The buffer's bits after a store (R55, R56). -/
theorem Memory.bit_store (m : Memory) (a n : Nat) (v : Word) (k : Nat) :
    (m.store a n v).bit k =
      if 8 * a ≤ k ∧ k < 8 * (a + n) then v.getLsbD (k - 8 * a) else m.bit k := by
  rw [Memory.bit, Memory.read_store]
  by_cases h : 8 * a ≤ k ∧ k < 8 * (a + n)
  · rw [if_pos (by omega), if_pos h, BitVec.getLsbD_setWidth, BitVec.getLsbD_ushiftRight]
    have h1 : 8 * (k / 8 - a) + k % 8 = k - 8 * a := by omega
    simp [h1, show k % 8 < 8 by omega]
  · rw [if_neg (by omega), if_neg h, Memory.bit]

/-- Bytes are equal when the buffer's bits are. -/
theorem Memory.read_eq_of_bit_eq {m m' : Memory} {a : Nat} (h : ∀ i < 8, m.bit (8 * a + i) = m'.bit (8 * a + i)) :
    m.read a = m'.read a := by
  refine BitVec.eq_of_getLsbD_eq (fun i hi => ?_)
  have := h i hi
  simpa [Memory.bit, show (8 * a + i) / 8 = a by omega, show i % 8 = i by omega] using this

end Sys2Proof.Machine
end

