-- ==== Sys2Proof/Laws/State.lean ====
section
/-! SUPPORT. One lemma per field per update of `State`, each true by `rfl`: what every shared operation leaves in every
field. No later proof unfolds a record update. -/

namespace Sys2Proof.Machine

/-! ## Transfers in the trace -/

@[simp] theorem State.logged_crc (s : State) (ts : List Transfer) : (s.logged ts).crc = s.crc := rfl
@[simp] theorem State.logged_status (s : State) (ts : List Transfer) : (s.logged ts).status = s.status := rfl
@[simp] theorem State.logged_arg0 (s : State) (ts : List Transfer) : (s.logged ts).arg0 = s.arg0 := rfl
@[simp] theorem State.logged_arg1 (s : State) (ts : List Transfer) : (s.logged ts).arg1 = s.arg1 := rfl
@[simp] theorem State.logged_arg2 (s : State) (ts : List Transfer) : (s.logged ts).arg2 = s.arg2 := rfl
@[simp] theorem State.logged_res (s : State) (ts : List Transfer) : (s.logged ts).res = s.res := rfl
@[simp] theorem State.logged_finfo (s : State) (ts : List Transfer) : (s.logged ts).finfo = s.finfo := rfl
@[simp] theorem State.logged_buflen (s : State) (ts : List Transfer) : (s.logged ts).buflen = s.buflen := rfl
@[simp] theorem State.logged_mem (s : State) (ts : List Transfer) : (s.logged ts).mem = s.mem := rfl
@[simp] theorem State.logged_bound (s : State) (ts : List Transfer) : (s.logged ts).bound = s.bound := rfl
@[simp] theorem State.logged_bus (s : State) (ts : List Transfer) : (s.logged ts).bus = s.bus ++ ts := rfl
@[simp] theorem State.logged_program (s : State) (ts : List Transfer) : (s.logged ts).program = s.program := rfl
@[simp] theorem State.logged_rdata (s : State) (ts : List Transfer) : (s.logged ts).rdata = s.rdata := rfl
@[simp] theorem State.logged_draws (s : State) (ts : List Transfer) : (s.logged ts).draws = s.draws := rfl
@[simp] theorem State.logged_bytes (s : State) (ts : List Transfer) : (s.logged ts).bytes = s.bytes := rfl
@[simp] theorem State.logged_off (s : State) (ts : List Transfer) : (s.logged ts).off = s.off := rfl
@[simp] theorem State.logged_len (s : State) (ts : List Transfer) : (s.logged ts).len = s.len := rfl

@[simp] theorem State.memRead_value (s : State) (a n : Nat) : (s.memRead a n).1 = s.mem.load a n := rfl
theorem State.memRead_state (s : State) (a n : Nat) : (s.memRead a n).2 = s.logged (transferOf .read a n) := rfl

/-! ## A read on the memory port -/

@[simp] theorem State.memRead_crc (s : State) (a n : Nat) : (s.memRead a n).2.crc = s.crc := rfl
@[simp] theorem State.memRead_status (s : State) (a n : Nat) : (s.memRead a n).2.status = s.status := rfl
@[simp] theorem State.memRead_arg0 (s : State) (a n : Nat) : (s.memRead a n).2.arg0 = s.arg0 := rfl
@[simp] theorem State.memRead_arg1 (s : State) (a n : Nat) : (s.memRead a n).2.arg1 = s.arg1 := rfl
@[simp] theorem State.memRead_arg2 (s : State) (a n : Nat) : (s.memRead a n).2.arg2 = s.arg2 := rfl
@[simp] theorem State.memRead_res (s : State) (a n : Nat) : (s.memRead a n).2.res = s.res := rfl
@[simp] theorem State.memRead_finfo (s : State) (a n : Nat) : (s.memRead a n).2.finfo = s.finfo := rfl
@[simp] theorem State.memRead_buflen (s : State) (a n : Nat) : (s.memRead a n).2.buflen = s.buflen := rfl
@[simp] theorem State.memRead_mem (s : State) (a n : Nat) : (s.memRead a n).2.mem = s.mem := rfl
@[simp] theorem State.memRead_bound (s : State) (a n : Nat) : (s.memRead a n).2.bound = s.bound := rfl
@[simp] theorem State.memRead_bus (s : State) (a n : Nat) : (s.memRead a n).2.bus = s.bus ++ transferOf .read a n := rfl
@[simp] theorem State.memRead_program (s : State) (a n : Nat) : (s.memRead a n).2.program = s.program := rfl
@[simp] theorem State.memRead_rdata (s : State) (a n : Nat) : (s.memRead a n).2.rdata = s.rdata := rfl
@[simp] theorem State.memRead_draws (s : State) (a n : Nat) : (s.memRead a n).2.draws = s.draws := rfl
@[simp] theorem State.memRead_bytes (s : State) (a n : Nat) : (s.memRead a n).2.bytes = s.bytes := rfl
@[simp] theorem State.memRead_off (s : State) (a n : Nat) : (s.memRead a n).2.off = s.off := rfl
@[simp] theorem State.memRead_len (s : State) (a n : Nat) : (s.memRead a n).2.len = s.len := rfl

/-! ## A write on the memory port -/

@[simp] theorem State.memWrite_crc (s : State) (a n : Nat) (v : Word) : (s.memWrite a n v).crc = s.crc := rfl
@[simp] theorem State.memWrite_status (s : State) (a n : Nat) (v : Word) : (s.memWrite a n v).status = s.status := rfl
@[simp] theorem State.memWrite_arg0 (s : State) (a n : Nat) (v : Word) : (s.memWrite a n v).arg0 = s.arg0 := rfl
@[simp] theorem State.memWrite_arg1 (s : State) (a n : Nat) (v : Word) : (s.memWrite a n v).arg1 = s.arg1 := rfl
@[simp] theorem State.memWrite_arg2 (s : State) (a n : Nat) (v : Word) : (s.memWrite a n v).arg2 = s.arg2 := rfl
@[simp] theorem State.memWrite_res (s : State) (a n : Nat) (v : Word) : (s.memWrite a n v).res = s.res := rfl
@[simp] theorem State.memWrite_finfo (s : State) (a n : Nat) (v : Word) : (s.memWrite a n v).finfo = s.finfo := rfl
@[simp] theorem State.memWrite_buflen (s : State) (a n : Nat) (v : Word) : (s.memWrite a n v).buflen = s.buflen := rfl
@[simp] theorem State.memWrite_mem (s : State) (a n : Nat) (v : Word) : (s.memWrite a n v).mem = s.mem.store a n v := rfl
@[simp] theorem State.memWrite_bound (s : State) (a n : Nat) (v : Word) : (s.memWrite a n v).bound = s.bound := rfl
@[simp] theorem State.memWrite_bus (s : State) (a n : Nat) (v : Word) : (s.memWrite a n v).bus = s.bus ++ transferOf .write a n := rfl
@[simp] theorem State.memWrite_program (s : State) (a n : Nat) (v : Word) : (s.memWrite a n v).program = s.program := rfl
@[simp] theorem State.memWrite_rdata (s : State) (a n : Nat) (v : Word) : (s.memWrite a n v).rdata = s.rdata := rfl
@[simp] theorem State.memWrite_draws (s : State) (a n : Nat) (v : Word) : (s.memWrite a n v).draws = s.draws := rfl
@[simp] theorem State.memWrite_bytes (s : State) (a n : Nat) (v : Word) : (s.memWrite a n v).bytes = s.bytes := rfl
@[simp] theorem State.memWrite_off (s : State) (a n : Nat) (v : Word) : (s.memWrite a n v).off = s.off := rfl
@[simp] theorem State.memWrite_len (s : State) (a n : Nat) (v : Word) : (s.memWrite a n v).len = s.len := rfl

/-! ## Fault entry -/

@[simp] theorem State.raise_crc (s : State) (cause : Cause) (info : Word) : (s.raise cause info).crc = s.crc := rfl
@[simp] theorem State.raise_status (s : State) (cause : Cause) (info : Word) : (s.raise cause info).status = { f := true, tv := s.status.tv, cause := cause.code } := rfl
@[simp] theorem State.raise_arg0 (s : State) (cause : Cause) (info : Word) : (s.raise cause info).arg0 = s.arg0 := rfl
@[simp] theorem State.raise_arg1 (s : State) (cause : Cause) (info : Word) : (s.raise cause info).arg1 = s.arg1 := rfl
@[simp] theorem State.raise_arg2 (s : State) (cause : Cause) (info : Word) : (s.raise cause info).arg2 = s.arg2 := rfl
@[simp] theorem State.raise_res (s : State) (cause : Cause) (info : Word) : (s.raise cause info).res = s.res := rfl
@[simp] theorem State.raise_finfo (s : State) (cause : Cause) (info : Word) : (s.raise cause info).finfo = info := rfl
@[simp] theorem State.raise_buflen (s : State) (cause : Cause) (info : Word) : (s.raise cause info).buflen = s.buflen := rfl
@[simp] theorem State.raise_mem (s : State) (cause : Cause) (info : Word) : (s.raise cause info).mem = s.mem := rfl
@[simp] theorem State.raise_bound (s : State) (cause : Cause) (info : Word) : (s.raise cause info).bound = s.bound := rfl
@[simp] theorem State.raise_bus (s : State) (cause : Cause) (info : Word) : (s.raise cause info).bus = s.bus := rfl
@[simp] theorem State.raise_program (s : State) (cause : Cause) (info : Word) : (s.raise cause info).program = s.program := rfl
@[simp] theorem State.raise_rdata (s : State) (cause : Cause) (info : Word) : (s.raise cause info).rdata = s.rdata := rfl
@[simp] theorem State.raise_draws (s : State) (cause : Cause) (info : Word) : (s.raise cause info).draws = s.draws := rfl
@[simp] theorem State.raise_bytes (s : State) (cause : Cause) (info : Word) : (s.raise cause info).bytes = s.bytes := rfl
@[simp] theorem State.raise_off (s : State) (cause : Cause) (info : Word) : (s.raise cause info).off = s.off := rfl
@[simp] theorem State.raise_len (s : State) (cause : Cause) (info : Word) : (s.raise cause info).len = s.len := rfl

/-! ## The result register -/

@[simp] theorem State.withRes_crc (s : State) (v : Word) : (s.withRes v).crc = s.crc := rfl
@[simp] theorem State.withRes_status (s : State) (v : Word) : (s.withRes v).status = s.status := rfl
@[simp] theorem State.withRes_arg0 (s : State) (v : Word) : (s.withRes v).arg0 = s.arg0 := rfl
@[simp] theorem State.withRes_arg1 (s : State) (v : Word) : (s.withRes v).arg1 = s.arg1 := rfl
@[simp] theorem State.withRes_arg2 (s : State) (v : Word) : (s.withRes v).arg2 = s.arg2 := rfl
@[simp] theorem State.withRes_res (s : State) (v : Word) : (s.withRes v).res = v := rfl
@[simp] theorem State.withRes_finfo (s : State) (v : Word) : (s.withRes v).finfo = s.finfo := rfl
@[simp] theorem State.withRes_buflen (s : State) (v : Word) : (s.withRes v).buflen = s.buflen := rfl
@[simp] theorem State.withRes_mem (s : State) (v : Word) : (s.withRes v).mem = s.mem := rfl
@[simp] theorem State.withRes_bound (s : State) (v : Word) : (s.withRes v).bound = s.bound := rfl
@[simp] theorem State.withRes_bus (s : State) (v : Word) : (s.withRes v).bus = s.bus := rfl
@[simp] theorem State.withRes_program (s : State) (v : Word) : (s.withRes v).program = s.program := rfl
@[simp] theorem State.withRes_rdata (s : State) (v : Word) : (s.withRes v).rdata = s.rdata := rfl
@[simp] theorem State.withRes_draws (s : State) (v : Word) : (s.withRes v).draws = s.draws := rfl
@[simp] theorem State.withRes_bytes (s : State) (v : Word) : (s.withRes v).bytes = s.bytes := rfl
@[simp] theorem State.withRes_off (s : State) (v : Word) : (s.withRes v).off = s.off := rfl
@[simp] theorem State.withRes_len (s : State) (v : Word) : (s.withRes v).len = s.len := rfl

/-! ## The value read by the host -/

@[simp] theorem State.withRdata_crc (s : State) (v : Word) : (s.withRdata v).crc = s.crc := rfl
@[simp] theorem State.withRdata_status (s : State) (v : Word) : (s.withRdata v).status = s.status := rfl
@[simp] theorem State.withRdata_arg0 (s : State) (v : Word) : (s.withRdata v).arg0 = s.arg0 := rfl
@[simp] theorem State.withRdata_arg1 (s : State) (v : Word) : (s.withRdata v).arg1 = s.arg1 := rfl
@[simp] theorem State.withRdata_arg2 (s : State) (v : Word) : (s.withRdata v).arg2 = s.arg2 := rfl
@[simp] theorem State.withRdata_res (s : State) (v : Word) : (s.withRdata v).res = s.res := rfl
@[simp] theorem State.withRdata_finfo (s : State) (v : Word) : (s.withRdata v).finfo = s.finfo := rfl
@[simp] theorem State.withRdata_buflen (s : State) (v : Word) : (s.withRdata v).buflen = s.buflen := rfl
@[simp] theorem State.withRdata_mem (s : State) (v : Word) : (s.withRdata v).mem = s.mem := rfl
@[simp] theorem State.withRdata_bound (s : State) (v : Word) : (s.withRdata v).bound = s.bound := rfl
@[simp] theorem State.withRdata_bus (s : State) (v : Word) : (s.withRdata v).bus = s.bus := rfl
@[simp] theorem State.withRdata_program (s : State) (v : Word) : (s.withRdata v).program = s.program := rfl
@[simp] theorem State.withRdata_rdata (s : State) (v : Word) : (s.withRdata v).rdata = v := rfl
@[simp] theorem State.withRdata_draws (s : State) (v : Word) : (s.withRdata v).draws = s.draws := rfl
@[simp] theorem State.withRdata_bytes (s : State) (v : Word) : (s.withRdata v).bytes = s.bytes := rfl
@[simp] theorem State.withRdata_off (s : State) (v : Word) : (s.withRdata v).off = s.off := rfl
@[simp] theorem State.withRdata_len (s : State) (v : Word) : (s.withRdata v).len = s.len := rfl

/-! ## A built table -/

@[simp] theorem State.withTable_crc (s : State) (p : BitVec s.crc.width.bits) : (s.withTable p).crc = { width := s.crc.width, poly := p, table := buildTable p } := rfl
@[simp] theorem State.withTable_status (s : State) (p : BitVec s.crc.width.bits) : (s.withTable p).status = { f := s.status.f, tv := true, cause := s.status.cause } := rfl
@[simp] theorem State.withTable_arg0 (s : State) (p : BitVec s.crc.width.bits) : (s.withTable p).arg0 = s.arg0 := rfl
@[simp] theorem State.withTable_arg1 (s : State) (p : BitVec s.crc.width.bits) : (s.withTable p).arg1 = s.arg1 := rfl
@[simp] theorem State.withTable_arg2 (s : State) (p : BitVec s.crc.width.bits) : (s.withTable p).arg2 = s.arg2 := rfl
@[simp] theorem State.withTable_res (s : State) (p : BitVec s.crc.width.bits) : (s.withTable p).res = s.res := rfl
@[simp] theorem State.withTable_finfo (s : State) (p : BitVec s.crc.width.bits) : (s.withTable p).finfo = s.finfo := rfl
@[simp] theorem State.withTable_buflen (s : State) (p : BitVec s.crc.width.bits) : (s.withTable p).buflen = s.buflen := rfl
@[simp] theorem State.withTable_mem (s : State) (p : BitVec s.crc.width.bits) : (s.withTable p).mem = s.mem := rfl
@[simp] theorem State.withTable_bound (s : State) (p : BitVec s.crc.width.bits) : (s.withTable p).bound = s.bound := rfl
@[simp] theorem State.withTable_bus (s : State) (p : BitVec s.crc.width.bits) : (s.withTable p).bus = s.bus := rfl
@[simp] theorem State.withTable_program (s : State) (p : BitVec s.crc.width.bits) : (s.withTable p).program = s.program := rfl
@[simp] theorem State.withTable_rdata (s : State) (p : BitVec s.crc.width.bits) : (s.withTable p).rdata = s.rdata := rfl
@[simp] theorem State.withTable_draws (s : State) (p : BitVec s.crc.width.bits) : (s.withTable p).draws = s.draws := rfl
@[simp] theorem State.withTable_bytes (s : State) (p : BitVec s.crc.width.bits) : (s.withTable p).bytes = s.bytes := rfl
@[simp] theorem State.withTable_off (s : State) (p : BitVec s.crc.width.bits) : (s.withTable p).off = s.off := rfl
@[simp] theorem State.withTable_len (s : State) (p : BitVec s.crc.width.bits) : (s.withTable p).len = s.len := rfl

/-! ## The start of an action -/

@[simp] theorem State.begin_crc (s : State) (rest : List Action) : (s.begin rest).crc = s.crc := rfl
@[simp] theorem State.begin_status (s : State) (rest : List Action) : (s.begin rest).status = s.status := rfl
@[simp] theorem State.begin_arg0 (s : State) (rest : List Action) : (s.begin rest).arg0 = s.arg0 := rfl
@[simp] theorem State.begin_arg1 (s : State) (rest : List Action) : (s.begin rest).arg1 = s.arg1 := rfl
@[simp] theorem State.begin_arg2 (s : State) (rest : List Action) : (s.begin rest).arg2 = s.arg2 := rfl
@[simp] theorem State.begin_res (s : State) (rest : List Action) : (s.begin rest).res = s.res := rfl
@[simp] theorem State.begin_finfo (s : State) (rest : List Action) : (s.begin rest).finfo = s.finfo := rfl
@[simp] theorem State.begin_buflen (s : State) (rest : List Action) : (s.begin rest).buflen = s.buflen := rfl
@[simp] theorem State.begin_mem (s : State) (rest : List Action) : (s.begin rest).mem = s.mem := rfl
@[simp] theorem State.begin_bound (s : State) (rest : List Action) : (s.begin rest).bound = s.bound := rfl
@[simp] theorem State.begin_bus (s : State) (rest : List Action) : (s.begin rest).bus = [] := rfl
@[simp] theorem State.begin_program (s : State) (rest : List Action) : (s.begin rest).program = rest := rfl
@[simp] theorem State.begin_rdata (s : State) (rest : List Action) : (s.begin rest).rdata = s.rdata := rfl
@[simp] theorem State.begin_draws (s : State) (rest : List Action) : (s.begin rest).draws = s.draws := rfl
@[simp] theorem State.begin_bytes (s : State) (rest : List Action) : (s.begin rest).bytes = s.bytes := rfl
@[simp] theorem State.begin_off (s : State) (rest : List Action) : (s.begin rest).off = s.off := rfl
@[simp] theorem State.begin_len (s : State) (rest : List Action) : (s.begin rest).len = s.len := rfl

/-! ## A command to be issued -/

@[simp] theorem State.withCommand_crc (s : State) (c : CmdWord) : (s.withCommand c).crc = s.crc := rfl
@[simp] theorem State.withCommand_status (s : State) (c : CmdWord) : (s.withCommand c).status = s.status := rfl
@[simp] theorem State.withCommand_arg0 (s : State) (c : CmdWord) : (s.withCommand c).arg0 = s.arg0 := rfl
@[simp] theorem State.withCommand_arg1 (s : State) (c : CmdWord) : (s.withCommand c).arg1 = s.arg1 := rfl
@[simp] theorem State.withCommand_arg2 (s : State) (c : CmdWord) : (s.withCommand c).arg2 = s.arg2 := rfl
@[simp] theorem State.withCommand_res (s : State) (c : CmdWord) : (s.withCommand c).res = s.res := rfl
@[simp] theorem State.withCommand_finfo (s : State) (c : CmdWord) : (s.withCommand c).finfo = s.finfo := rfl
@[simp] theorem State.withCommand_buflen (s : State) (c : CmdWord) : (s.withCommand c).buflen = s.buflen := rfl
@[simp] theorem State.withCommand_mem (s : State) (c : CmdWord) : (s.withCommand c).mem = s.mem := rfl
@[simp] theorem State.withCommand_bound (s : State) (c : CmdWord) : (s.withCommand c).bound = s.bound := rfl
@[simp] theorem State.withCommand_bus (s : State) (c : CmdWord) : (s.withCommand c).bus = s.bus := rfl
@[simp] theorem State.withCommand_program (s : State) (c : CmdWord) : (s.withCommand c).program = .command c [] :: s.program := rfl
@[simp] theorem State.withCommand_rdata (s : State) (c : CmdWord) : (s.withCommand c).rdata = s.rdata := rfl
@[simp] theorem State.withCommand_draws (s : State) (c : CmdWord) : (s.withCommand c).draws = s.draws := rfl
@[simp] theorem State.withCommand_bytes (s : State) (c : CmdWord) : (s.withCommand c).bytes = s.bytes := rfl
@[simp] theorem State.withCommand_off (s : State) (c : CmdWord) : (s.withCommand c).off = s.off := rfl
@[simp] theorem State.withCommand_len (s : State) (c : CmdWord) : (s.withCommand c).len = s.len := rfl

/-! ## Reset -/

@[simp] theorem resetOp_crc (s : State) : (resetOp s).crc = CrcEngine.unbuilt s.crc.width := rfl
@[simp] theorem resetOp_status (s : State) : (resetOp s).status = { f := false, tv := false, cause := 0 } := rfl
@[simp] theorem resetOp_arg0 (s : State) : (resetOp s).arg0 = 0 := rfl
@[simp] theorem resetOp_arg1 (s : State) : (resetOp s).arg1 = 0 := rfl
@[simp] theorem resetOp_arg2 (s : State) : (resetOp s).arg2 = 0 := rfl
@[simp] theorem resetOp_res (s : State) : (resetOp s).res = 0 := rfl
@[simp] theorem resetOp_finfo (s : State) : (resetOp s).finfo = 0 := rfl
@[simp] theorem resetOp_buflen (s : State) : (resetOp s).buflen = 0 := rfl
@[simp] theorem resetOp_mem (s : State) : (resetOp s).mem = s.mem := rfl
@[simp] theorem resetOp_bound (s : State) : (resetOp s).bound = s.bound := rfl
@[simp] theorem resetOp_bus (s : State) : (resetOp s).bus = s.bus := rfl
@[simp] theorem resetOp_program (s : State) : (resetOp s).program = s.program := rfl
@[simp] theorem resetOp_rdata (s : State) : (resetOp s).rdata = s.rdata := rfl
@[simp] theorem resetOp_draws (s : State) : (resetOp s).draws = s.draws := rfl

@[simp] theorem CrcEngine.unbuilt_width (w : Width) : (CrcEngine.unbuilt w).width = w := rfl

end Sys2Proof.Machine
end

