-- ==== Sys2Proof/Laws/BitField.lean ====
section
/-! SUPPORT. What the shared operations of the bit-field unit do, bit by bit: the masks, the elementary operations
(41_bitfield.md R131, R132), the paths (R143) and the whole field operations, with what each leaves unchanged; and the bits
of the buffer as one integer (R134). -/

namespace Sys2Proof.Machine

/-! ## Masks and windows -/

theorem getLsbD_lowOnes {len : Nat} (h : len ≤ 64) (j : Nat) : (lowOnes len).getLsbD j = decide (j < len) := by
  rw [lowOnes, BitVec.getLsbD_ushiftRight, BitVec.getLsbD_allOnes]
  congr 1; simp only [eq_iff_iff]; omega

theorem getLsbD_fieldMask {len sh : Nat} (h : sh + len ≤ 64) (j : Nat) :
    (fieldMask len sh).getLsbD j = decide (sh ≤ j ∧ j < sh + len) := by
  rw [fieldMask, BitVec.getLsbD_shiftLeft, getLsbD_lowOnes (by omega)]
  by_cases h1 : sh ≤ j ∧ j < sh + len
  · simp [h1, show j < 64 by omega, show ¬ j < sh by omega, show j - sh < len by omega]
  · by_cases h2 : j < sh
    · simp [h2]
    · simp [show ¬ j - sh < len by omega]; omega

/-- The bits of a merged window (R131): the field's bits come from the value, the others from the window. -/
theorem getLsbD_mergeWindow (w v : Word) {len sh : Nat} (h : sh + len ≤ 64) {j : Nat} (hj : j < 64) :
    (mergeWindow w v len sh).getLsbD j =
      if sh ≤ j ∧ j < sh + len then v.getLsbD (j - sh) else w.getLsbD j := by
  rw [mergeWindow, BitVec.getLsbD_or, BitVec.getLsbD_and, BitVec.getLsbD_and, BitVec.getLsbD_not,
    getLsbD_fieldMask h, BitVec.getLsbD_shiftLeft]
  by_cases h1 : sh ≤ j ∧ j < sh + len
  · simp [h1, hj, show ¬ j < sh by omega]
  · simp [h1, hj]

/-- The bits of an extracted field (R132). -/
theorem getLsbD_extractWindow (w : Word) {len : Nat} (sh : Nat) (h : len ≤ 64) (j : Nat) :
    (extractWindow w len sh).getLsbD j = (w.getLsbD (sh + j) && decide (j < len)) := by
  rw [extractWindow, BitVec.getLsbD_and, BitVec.getLsbD_ushiftRight, getLsbD_lowOnes h]

theorem clip_le (bytes b : Nat) : clip bytes b ≤ 8 := Nat.min_le_left _ _

/-! ## Elementary operations -/

/-- `Set56` (R131) replaces the field's bits and no other bit of the buffer. -/
theorem set56_bit {off len : Nat} (v : Word) (s : State) (h1 : len ≤ 56) (h2 : off + len ≤ 8 * s.bytes)
    (k : Nat) :
    (set56 off len v s).mem.bit k =
      if off ≤ k ∧ k < off + len then v.getLsbD (k - off) else s.mem.bit k := by
  have hc : clip s.bytes (off / 8) = min 8 (s.bytes - off / 8) := rfl
  simp only [set56, State.memWrite_mem, State.memRead_mem, State.memRead_value, Memory.bit_store]
  by_cases hk : 8 * (off / 8) ≤ k ∧ k < 8 * (off / 8 + clip s.bytes (off / 8))
  · rw [if_pos hk, getLsbD_mergeWindow _ _ (by omega) (by have := clip_le s.bytes (off / 8); omega),
      Memory.getLsbD_load _ _ _ _ (clip_le _ _)]
    by_cases hf : off ≤ k ∧ k < off + len
    · rw [if_pos (by omega), if_pos hf]; congr 1; omega
    · rw [if_neg (by omega), if_neg hf, show 8 * (off / 8) + (k - 8 * (off / 8)) = k by omega]
      simp [show k - 8 * (off / 8) < 8 * clip s.bytes (off / 8) by omega]
  · rw [if_neg hk, if_neg (by omega)]

/-- `Set56` writes memory and the trace only, by one read and one write of the clipped window. -/
theorem set56_eq (off len : Nat) (v : Word) (s : State) :
    set56 off len v s =
      { s with
        mem := (set56 off len v s).mem
        bus := s.bus ++ transferOf .read (off / 8) (clip s.bytes (off / 8)) ++
          transferOf .write (off / 8) (clip s.bytes (off / 8)) } := rfl

@[simp] theorem set56_bytes (off len : Nat) (v : Word) (s : State) : (set56 off len v s).bytes = s.bytes := rfl

/-- `Get56` (R132) reads the field's bits, zeros above them. -/
theorem get56_bit {off len : Nat} (s : State) (h1 : len ≤ 56) (h2 : off + len ≤ 8 * s.bytes) (j : Nat) :
    (get56 off len s).1.getLsbD j = (decide (j < len) && s.mem.bit (off + j)) := by
  have hc : clip s.bytes (off / 8) = min 8 (s.bytes - off / 8) := rfl
  simp only [get56, State.memRead_value]
  rw [getLsbD_extractWindow _ _ (by omega), Memory.getLsbD_load _ _ _ _ (clip_le _ _)]
  by_cases hj : j < len
  · rw [show 8 * (off / 8) + (off % 8 + j) = off + j by omega]
    simp [hj, show off % 8 + j < 8 * clip s.bytes (off / 8) by omega]
  · simp [hj]

theorem get56_state (off len : Nat) (s : State) :
    (get56 off len s).2 = s.logged (transferOf .read (off / 8) (clip s.bytes (off / 8))) := rfl

/-! ## BF.SET -/

/-- The slow path of `BF.SET` (R144, R147) replaces the field's bits and no other bit of the buffer. -/
theorem setSlow_bit {off len : Nat} (v : Word) (s : State) (h1 : len ≤ 64) (h2 : off + len ≤ 8 * s.bytes)
    (k : Nat) :
    (setSlow off len v s).mem.bit k =
      if off ≤ k ∧ k < off + len then v.getLsbD (k - off) else s.mem.bit k := by
  rw [setSlow]
  by_cases h : len ≤ 56
  · rw [if_pos h, set56_bit v s h h2]
  · rw [if_neg h, set56_bit _ _ (by omega) (by simp only [set56_bytes]; omega), set56_bit v s (by omega) (by omega)]
    by_cases hh : off + 56 ≤ k ∧ k < off + 56 + (len - 56)
    · rw [if_pos hh, if_pos (by omega), BitVec.getLsbD_ushiftRight]; congr 1; omega
    · rw [if_neg hh]
      by_cases hl : off ≤ k ∧ k < off + 56
      · rw [if_pos hl, if_pos (by omega)]
      · rw [if_neg hl, if_neg (by omega)]

/-- The fast path of `BF.SET` (R145) replaces the field's bits and no other bit of the buffer. -/
theorem setFast_bit {off len : Nat} (v : Word) (s : State) (ha : off % 8 = 0 ∧ len % 8 = 0) (k : Nat) :
    (setFast off len v s).mem.bit k =
      if off ≤ k ∧ k < off + len then v.getLsbD (k - off) else s.mem.bit k := by
  simp only [setFast, State.memWrite_mem, Memory.bit_store]
  by_cases hf : off ≤ k ∧ k < off + len
  · rw [if_pos (by omega), if_pos hf]; congr 1; omega
  · rw [if_neg (by omega), if_neg hf]

theorem aligned_iff (off len : Nat) : aligned off len = true ↔ off % 8 = 0 ∧ len % 8 = 0 := by
  simp [aligned]

/-- `BF.SET` after its checks replaces the field's bits and no other bit of the buffer, whatever its path (R148, R161). -/
theorem writeField_bit {off len : Nat} (v : Word) (s : State) (h1 : len ≤ 64) (h2 : off + len ≤ 8 * s.bytes)
    (k : Nat) :
    (writeField off len v s).mem.bit k =
      if off ≤ k ∧ k < off + len then v.getLsbD (k - off) else s.mem.bit k := by
  rw [writeField]
  split
  · next h => exact setFast_bit v s ((aligned_iff _ _).mp h) k
  · exact setSlow_bit v s h1 h2 k

/-- Changing memory and the trace only is transitive. -/
theorem memBus_trans {s t u : State} (h : t = { s with mem := t.mem, bus := t.bus })
    (h' : u = { t with mem := u.mem, bus := u.bus }) : u = { s with mem := u.mem, bus := u.bus } := by
  cases s; cases t; cases u
  simp only [State.mk.injEq, true_and] at h h' ⊢
  simp_all

/-- `BF.SET` after its checks writes memory and the trace only (R135). -/
theorem writeField_eq (off len : Nat) (v : Word) (s : State) :
    writeField off len v s =
      { s with mem := (writeField off len v s).mem, bus := (writeField off len v s).bus } := by
  have h56 : ∀ (o l : Nat) (x : Word) (t : State),
      set56 o l x t = { t with mem := (set56 o l x t).mem, bus := (set56 o l x t).bus } := fun _ _ _ _ => rfl
  rw [writeField, setSlow]
  split
  · rfl
  · split
    · exact h56 _ _ _ _
    · exact memBus_trans (h56 _ _ _ _) (h56 _ _ _ _)

theorem writeField_wf {off len : Nat} {v : Word} {s : State} (h : Memory.wf s.mem) :
    Memory.wf (writeField off len v s).mem := by
  have h56 : ∀ (o l : Nat) (x : Word) (t : State), Memory.wf t.mem → Memory.wf (set56 o l x t).mem := by
    intro o l x t ht
    simp only [set56, State.memWrite_mem, State.memRead_mem]
    exact Memory.wf_store ht _ _ _
  rw [writeField, setSlow]
  split
  · exact Memory.wf_store h _ _ _
  · split
    · exact h56 _ _ _ _ h
    · exact h56 _ _ _ _ (h56 _ _ _ _ h)

/-! ## BF.GET -/

theorem getSlow_bit {off len : Nat} (s : State) (h1 : len ≤ 64) (h2 : off + len ≤ 8 * s.bytes) (j : Nat) :
    (getSlow off len s).1.getLsbD j = (decide (j < len) && s.mem.bit (off + j)) := by
  rw [getSlow]
  by_cases h : len ≤ 56
  · rw [if_pos h, get56_bit s h h2]
  · rw [if_neg h]
    simp only [BitVec.getLsbD_or, BitVec.getLsbD_shiftLeft]
    rw [get56_bit s (by omega) (by omega), get56_bit _ (by omega) (by simp only [get56_state, State.logged_bytes]; omega)]
    simp only [get56_state, State.logged_mem]
    by_cases hj : j < 56
    · simp [hj, show j < len by omega]
    · by_cases hl : j < len
      · rw [show off + 56 + (j - 56) = off + j by omega]
        simp [hj, hl, show j < 64 by omega, show j - 56 < len - 56 by omega]
      · simp [hj, hl, show ¬ j - 56 < len - 56 by omega]

theorem getFast_bit {off len : Nat} (s : State) (h1 : len ≤ 64) (ha : off % 8 = 0 ∧ len % 8 = 0) (j : Nat) :
    (getFast off len s).1.getLsbD j = (decide (j < len) && s.mem.bit (off + j)) := by
  simp only [getFast, State.memRead_value]
  rw [Memory.getLsbD_load _ _ _ _ (by omega), show 8 * (off / 8) = off by omega, show 8 * (len / 8) = len by omega]

/-- `BF.GET` after its checks reads the field's bits, zeros above them, whatever its path (R134, R151). -/
theorem readField_bit {off len : Nat} (s : State) (h1 : len ≤ 64) (h2 : off + len ≤ 8 * s.bytes) (j : Nat) :
    (readField off len s).1.getLsbD j = (decide (j < len) && s.mem.bit (off + j)) := by
  rw [readField]
  split
  · next h => exact getFast_bit s h1 ((aligned_iff _ _).mp h) j
  · exact getSlow_bit s h1 h2 j

/-- `BF.GET` after its checks changes nothing but the trace before it writes `RES` (R154). -/
theorem readField_state (off len : Nat) (s : State) :
    (readField off len s).2 = { s with bus := (readField off len s).2.bus } := by
  rw [readField, getSlow]
  split
  · rfl
  · split <;> rfl

/-! ## The buffer as one integer -/

/-- The bits of the buffer's integer (R56): "buffer bit `k` is bit `k` of `B`". -/
theorem bufferValue_testBit (m : Memory) (n k : Nat) :
    (bufferValue m n).testBit k = (decide (k < 8 * n) && m.bit k) := by
  have hlt : ∀ n, bufferValue m n < 2 ^ (8 * n) := by
    intro n
    induction n with
    | zero => simp [bufferValue]
    | succ n ih =>
      have hb : (m.read n).toNat < 2 ^ 8 := (m.read n).isLt
      rw [bufferValue, show 8 * (n + 1) = 8 * n + 8 by omega, pow_add]
      nlinarith
  induction n with
  | zero => simp [bufferValue]
  | succ n ih =>
    rw [bufferValue, Nat.add_comm, Nat.mul_comm, Nat.testBit_two_pow_mul_add _ (hlt n), ih]
    by_cases h : k < 8 * n
    · simp [h, show k < 8 * (n + 1) by omega]
    · rw [if_neg h, Memory.bit]
      by_cases h2 : k < 8 * (n + 1)
      · have h3 : k / 8 = n := by omega
        have h4 : k % 8 = k - 8 * n := by omega
        simp [h2, h3, h4, BitVec.getLsbD]
      · simp [h2]
        exact Nat.testBit_lt_two_pow (lt_of_lt_of_le (m.read n).isLt
          (Nat.pow_le_pow_right (by omega) (by omega)))

end Sys2Proof.Machine
end

