-- ==== Sys2Proof/Laws/Crc.lean ====
section
/-! SUPPORT. What the shared operations of the CRC unit do: the entries of a built table (40_crc.md R107), the loop of
`CRC.CMPB` (R111, R112), the division step as a linear map (R105, R118), and the command words of checked instructions. -/

namespace Sys2Proof.Machine

/-! ## The table -/

/-- Entry `i` of a built table is `TableEntry(p, i)` (R107). -/
theorem buildTable_get {w : Nat} (p : BitVec w) (i : Nat) (h : i < 256) :
    (buildTable p)[i]'h = tableEntry p (BitVec.ofNat 8 i) := by
  simp [buildTable]

theorem buildTable_get_byte {w : Nat} (p : BitVec w) (d : Byte) :
    (buildTable p)[d.toNat]'d.isLt = tableEntry p d := by
  simp [buildTable_get]

/-! ## The division step -/

/-- The division step is linear in the remainder (R105, R118 (c)). -/
theorem divStep_linear {w : Nat} (p a b : BitVec w) : divStep p (a ^^^ b) = divStep p a ^^^ divStep p b := by
  rw [divStep, divStep, divStep, BitVec.msb_xor, BitVec.shiftLeft_xor_distrib]
  refine BitVec.eq_of_getLsbD_eq (fun i _ => ?_)
  cases a.msb <;> cases b.msb <;> simp only [Bool.xor_false, Bool.false_xor, Bool.xor_self, Bool.false_eq_true,
    if_true, if_false, BitVec.getLsbD_xor] <;>
    cases (a <<< 1).getLsbD i <;> cases (b <<< 1).getLsbD i <;> cases p.getLsbD i <;> rfl

theorem divSteps_linear {w : Nat} (p : BitVec w) (n : Nat) (a b : BitVec w) :
    divSteps p n (a ^^^ b) = divSteps p n a ^^^ divSteps p n b := by
  induction n generalizing a b with
  | zero => rfl
  | succ n ih => rw [divSteps, divStep_linear, ih]; rfl

theorem divStep_zero {w : Nat} (p : BitVec w) : divStep p 0 = 0 := by
  simp [divStep]

theorem divSteps_zero {w : Nat} (p : BitVec w) (n : Nat) : divSteps p n 0 = 0 := by
  induction n with
  | zero => rfl
  | succ n ih => rw [divSteps, divStep_zero, ih]

/-- Iterations that never meet a one at the top are plain shifts. -/
theorem divSteps_shift {w : Nat} (p : BitVec w) (n : Nat) (r : BitVec w)
    (h : ∀ k < n, r.getMsbD k = false) : divSteps p n r = r <<< n := by
  induction n generalizing r with
  | zero => simp [divSteps]
  | succ n ih =>
    have h0 : r.msb = false := by simpa [BitVec.msb] using h 0 (by omega)
    rw [divSteps, divStep, h0, if_neg (by simp), ih, ← BitVec.shiftLeft_add, Nat.add_comm]
    intro k hk
    rw [BitVec.getMsbD_shiftLeft, Nat.add_comm, Nat.add_comm, h (k + 1) (by omega)]

/-! ## The loop of CRC.CMPB -/

/-- A byte read by one transfer (R57). -/
theorem memRead_one (s : State) (a : Nat) : (s.memRead a 1).1.setWidth 8 = s.mem.read a := by
  simp [Memory.load]

theorem rangeBytes_succ (m : Memory) (a n : Nat) : rangeBytes m a (n + 1) = m.read a :: rangeBytes m (a + 1) n := by
  rw [rangeBytes, List.range_succ_eq_map, List.map_cons, List.map_map, rangeBytes]
  congr 1
  refine List.map_congr_left (fun i _ => ?_)
  simp only [Function.comp_apply]; congr 1; omega

theorem rangeFootprint_succ (a n : Nat) : rangeFootprint a (n + 1) = readT a 1 :: rangeFootprint (a + 1) n := by
  rw [rangeFootprint, List.range_succ_eq_map, List.map_cons, List.map_map, rangeFootprint]
  congr 1
  refine List.map_congr_left (fun i _ => ?_)
  simp only [Function.comp_apply]; congr 1; omega

/-- The loop of `CRC.CMPB` computes `CrcCompute` of the range's bytes, by one-byte reads in ascending order, and changes
nothing but the trace (R111, R112, R113). -/
theorem crcRange_eq {w : Nat} (tab : Vector (BitVec w) 256) (s : State) (a n : Nat) (r : BitVec w) :
    crcRange tab s a n r =
      (crcCompute tab (rangeBytes s.mem a n) r, s.logged (rangeFootprint a n)) := by
  induction n generalizing s a r with
  | zero => simp [crcRange, rangeBytes, rangeFootprint, crcCompute, State.logged]
  | succ n ih =>
    rw [crcRange, ih, memRead_one, rangeBytes_succ, rangeFootprint_succ]
    simp [crcCompute, State.memRead, State.logged, transferOf, readT]

/-! ## Checked instructions -/

/-- A checked instruction always answers a next state: its effect, or a fault entry that changes `STATUS` and `FINFO` only
(R200, R201). -/
theorem checked_cases {check : Option Cause} {i : Instr} {s t u : State} (h : checked check i s t = .next u) :
    (check = none ∧ u = t) ∨ ∃ c, check = some c ∧ u = s.raise c ((encode i).setWidth 64) := by
  cases check with
  | none => left; simpa [checked, eq_comm] using h
  | some c => right; exact ⟨c, rfl, by simpa [checked, eq_comm] using h⟩

theorem checked_none (i : Instr) (s t : State) : checked none i s t = .next t := rfl

theorem checked_some (c : Cause) (i : Instr) (s t : State) :
    checked (some c) i s t = .next (s.raise c ((encode i).setWidth 64)) := rfl

theorem operandFits_iff (w : Nat) (v : Word) : operandFits w v = true ↔ v.toNat < 2 ^ w := by
  rw [operandFits, beq_iff_eq, ← BitVec.toNat_inj, BitVec.toNat_ushiftRight, Nat.shiftRight_eq_div_pow]
  simp [Nat.div_eq_zero_iff]

end Sys2Proof.Machine
end

