-- ==== Sys2Proof/Laws/PerInstr.lean ====
section
/-! SUPPORT. Facts about every instruction as syntax, one lemma per constructor: its word is selected by its row of the opcode
map (30_encoding.md R84). -/

namespace Sys2Proof.Laws.MatchesRow

/-- The word of an instruction is selected by the instruction's row (R84). -/
def Statement (i : Instr) : Prop := (rowOf i).selects (encode i) = true

theorem crcBuild : Statement .crcBuild := by unfold Statement; decide

theorem crcCmpb : Statement .crcCmpb := by unfold Statement; decide

theorem crcCmpi (imm8 : Byte) : Statement (.crcCmpi imm8) := by
  unfold Statement; revert imm8; decide +kernel

theorem bfSet : Statement .bfSet := by unfold Statement; decide

theorem bfGet (tw : ResultWidth) : Statement (.bfGet tw) := by
  unfold Statement; cases tw <;> decide

end Sys2Proof.Laws.MatchesRow
end

