-- ==== Sys2Proof/Laws/Port.lean ====
section
/-! SUPPORT. What the ports, the platform and a step can do, said once each: every later claim about steps is a case split on
these. -/

namespace Sys2Proof.Machine

/-! ## Instructions -/

/-- Every instruction answers a next state: it enters a fault, or has its effect (R201). -/
theorem exec_cases (i : Instr) (s : State) :
    (∃ c, exec i s = .next (s.raise c ((encode i).setWidth 64))) ∨
    (∃ t, exec i s = .next t ∧ t.status.f = s.status.f) := by
  have hw : ∀ off len v, (writeField off len v s).status = s.status := fun off len v => by rw [writeField_eq]
  have hr : ∀ off len, (readField off len s).2.status = s.status := fun off len => by rw [readField_state]
  cases i
  case crcBuild =>
    rw [exec, execCrcBuild]
    cases buildCheck s with
    | none => exact .inr ⟨_, rfl, rfl⟩
    | some c => exact .inl ⟨c, rfl⟩
  case crcCmpb =>
    rw [exec, execCrcCmpb]
    cases rangeCheck s with
    | none => exact .inr ⟨_, rfl, by simp [cmpbEffect, crcRange_eq]⟩
    | some c => exact .inl ⟨c, rfl⟩
  case crcCmpi imm8 =>
    rw [exec, execCrcCmpi]
    cases stepCheck s with
    | none => exact .inr ⟨_, rfl, rfl⟩
    | some c => exact .inl ⟨c, rfl⟩
  case bfSet =>
    rw [exec, execBfSet]
    cases fieldCheck none s with
    | none => exact .inr ⟨_, rfl, by rw [hw]⟩
    | some c => exact .inl ⟨c, rfl⟩
  case bfGet tw =>
    rw [exec, execBfGet]
    cases fieldCheck (some tw) s with
    | none => exact .inr ⟨_, rfl, by rw [State.withRes_status, hr]⟩
    | some c => exact .inl ⟨c, rfl⟩

/-! ## Command issue -/

/-- What issuing a command answers: it is ignored, illegal, or its instruction runs (R173). -/
theorem cmdIssue_cases (c : CmdWord) (s : State) :
    (s.status.f = true ∧ cmdIssue c s = .next s) ∨
    (s.status.f = false ∧ (∃ e, decode c = .error e) ∧
      cmdIssue c s = .next (s.raise .illegalCommand (c.setWidth 64))) ∨
    (s.status.f = false ∧ ∃ i, decode c = .ok i ∧ cmdIssue c s = exec i s) := by
  rw [cmdIssue]
  cases hf : s.status.f with
  | true => exact .inl ⟨rfl, if_pos rfl⟩
  | false =>
    rw [if_neg (by simp)]
    cases hd : decode c with
    | error e => exact .inr (.inl ⟨rfl, ⟨e, rfl⟩, rfl⟩)
    | ok i => exact .inr (.inr ⟨rfl, i, rfl, rfl⟩)

/-! ## The platform -/

theorem State.bufferBound_iff (s : State) : s.bufferBound = true ↔ s.buflen.toNat ≤ s.bound := by
  simp [State.bufferBound]

/-- What the platform lets pass: the other masters' accesses are bound and race with none of the command's, and only memory
changed, by them. -/
theorem platform_next {during : List ForeignAccess} {s t : State} (h : platform during s = .next t) :
    (∀ x ∈ during, x.addr < s.bound) ∧ races s.bus during = false ∧
      t = { s with mem := foreignWrites during s.mem } := by
  rw [platform] at h
  split at h
  · cases h
  · next hb =>
    split at h
    · cases h
    · next hr =>
      rw [not_not, List.all_eq_true] at hb
      exact ⟨fun x hx => by simpa using hb x hx, by simpa using hr, by cases h; rfl⟩

/-- With no other master acting, a command is what `CORE` makes of it. -/
theorem platform_alone (s : State) : platform [] s = .next s := by
  simp [platform, races, foreignWrites]

theorem foreignWrites_wf {m : Memory} (h : Memory.wf m) (during : List ForeignAccess) :
    Memory.wf (foreignWrites during m) := by
  induction during generalizing m with
  | nil => exact h
  | cons x during ih =>
    refine ih ?_
    show Memory.wf (applyAccess x m)
    rw [applyAccess]
    split
    · exact h
    · exact Memory.wf_write h _ _

/-! ## The register port -/

/-- A read changes nothing but the value returned, the draws of free values, and, for an unmapped number with `F = 0`, the
fault registers (R170: "A read never changes any other state"). -/
theorem regRead_frame (n : CmdWord) (s : State) :
    regRead n s = { s with
      status := (regRead n s).status, finfo := (regRead n s).finfo
      rdata := (regRead n s).rdata, draws := (regRead n s).draws } := by
  rw [regRead]
  cases Reg.ofNumber n with
  | none => simp only; split <;> rfl
  | some r => cases r <;> simp only [State.regValue, State.engineRead] <;> (try split) <;> rfl

theorem regRead_known {n : CmdWord} {r : Reg} (h : Reg.ofNumber n = some r) (s : State) :
    (regRead n s).status = s.status ∧ (regRead n s).finfo = s.finfo := by
  rw [regRead, h]
  cases r <;> simp only [State.regValue, State.engineRead] <;> (try split) <;> exact ⟨rfl, rfl⟩

/-- A read of a register returns its value on the port. -/
theorem regRead_some {n : CmdWord} {r : Reg} (h : Reg.ofNumber n = some r) (s : State) :
    regRead n s = (s.regValue r).2.withRdata (s.regValue r).1 := by
  rw [regRead, h]

theorem State.engineRead_built {s : State} (h : s.status.tv = true) (x : BitVec s.crc.width.bits) :
    s.engineRead x = (x.setWidth 64, s) := by
  rw [State.engineRead, if_pos h]

theorem State.engineRead_unbuilt {s : State} (h : s.status.tv = false) (x : BitVec s.crc.width.bits) :
    s.engineRead x =
      (((Config.freeValue s.draws).setWidth s.crc.width.bits).setWidth 64, { s with draws := s.draws + 1 }) := by
  rw [State.engineRead, if_neg (by simp [h])]

theorem regRead_unknown {n : CmdWord} (h : Reg.ofNumber n = none) (s : State) :
    regRead n s =
      (if s.status.f then s else s.raise .badRegister (badRegisterInfo n)).withRdata 0 := by
  rw [regRead, h]

/-- What a register write does (R171): it is ignored, it sets one of the four writable registers, or it raises. -/
theorem regWrite_cases (n : CmdWord) (v : Word) (s : State) :
    (s.status.f = true ∧ regWrite n v s = s) ∨
    (s.status.f = false ∧
      (regWrite n v s = { s with arg0 := v } ∨ regWrite n v s = { s with arg1 := v } ∨
       regWrite n v s = { s with arg2 := v } ∨ regWrite n v s = { s with buflen := v } ∨
       regWrite n v s = s.raise .badRegister (badRegisterInfo n))) := by
  rw [regWrite]
  cases hf : s.status.f with
  | true => exact .inl ⟨rfl, if_pos rfl⟩
  | false =>
    refine .inr ⟨rfl, ?_⟩
    rw [if_neg (by simp)]
    cases Reg.ofNumber n with
    | none => simp
    | some r => cases r <;> simp [State.regUpdate]

theorem badRegisterInfo_toNat (n : CmdWord) : (badRegisterInfo n).toNat = 2 ^ 32 + n.toNat := by
  have := n.isLt
  simp only [badRegisterInfo]
  rw [BitVec.toNat_add, BitVec.toNat_setWidth]
  simp
  omega

/-! ## Steps -/

theorem step_idle {s : State} (h : s.program = []) : step s = .next s := by
  rw [step, stepProgram, h]

theorem step_action {s : State} {x : Action} {rest : List Action} (h : s.program = x :: rest) :
    step s = act x (s.begin rest) := by
  rw [step, stepProgram, h]

/-- What a step does: nothing, or the next action of the host or its platform. -/
theorem step_cases {s t : State} (h : step s = .next t) :
    (s.program = [] ∧ t = s) ∨ ∃ x rest, s.program = x :: rest ∧ act x (s.begin rest) = .next t := by
  cases hp : s.program with
  | nil => rw [step_idle hp] at h; cases h; exact .inl ⟨rfl, rfl⟩
  | cons x rest => rw [step_action hp] at h; exact .inr ⟨x, rest, rfl, h⟩

/-- A command that `CORE` ignores, or that runs with its buffer bound, comes out as its issue, judged by the platform. -/
theorem runCommand_bound {c : CmdWord} {during : List ForeignAccess} {s t : State}
    (hb : s.status.f = true ∨ s.buflen.toNat ≤ s.bound) (h : cmdIssue c s = .next t) :
    runCommand c during s = platform during t := by
  rw [runCommand, if_neg, h]
  rcases hb with hb | hb
  · simp [hb]
  · simp [(State.bufferBound_iff s).mpr hb]

/-- No instruction runs while `BUFLEN` is larger than the memory bound (R226 (a)). -/
theorem runCommand_unbound {c : CmdWord} {during : List ForeignAccess} {s : State} (hf : s.status.f = false)
    (hb : s.bound < s.buflen.toNat) : runCommand c during s = .fault .bufferNotBound := by
  have : ¬ s.bufferBound = true := by rw [State.bufferBound_iff]; omega
  rw [runCommand, if_pos (by simp [hf, this])]

/-- A command's outcome is its issue's, judged by the platform. -/
theorem runCommand_next {c : CmdWord} {during : List ForeignAccess} {s t : State}
    (h : runCommand c during s = .next t) :
    (s.status.f = true ∨ s.buflen.toNat ≤ s.bound) ∧ ∃ u, cmdIssue c s = .next u ∧ platform during u = .next t := by
  rw [runCommand] at h
  split at h
  · cases h
  · next hb =>
    rw [not_not, Bool.or_eq_true, State.bufferBound_iff] at hb
    split at h
    · next u hu => exact ⟨hb, u, hu, h⟩
    · cases h
    · cases h

/-! ## Runs -/

theorem coreRun_zero (s : State) : Host.Core.run Sys2Proof.core 0 s = .next s := rfl

/-- A run whose first step answers a next state goes on from there, on any machine. -/
theorem run_succ_of_next (M : Host.Core) (k : Nat) {s t : M.State} (h : M.step s = .next t) :
    M.run (k + 1) s = M.run k t := by
  simp only [Host.Core.run, h]

/-- A run of this machine whose first step answers a next state goes on from there. -/
theorem coreRun_next (k : Nat) {s t : State} (h : step s = .next t) :
    Host.Core.run Sys2Proof.core (k + 1) s = Host.Core.run Sys2Proof.core k t :=
  run_succ_of_next Sys2Proof.core k h

/-- Runs compose, on any machine. -/
theorem run_add_of_next (M : Host.Core) (n k : Nat) {s t : M.State} (h : M.run n s = .next t) :
    M.run (n + k) s = M.run k t := by
  induction n generalizing s with
  | zero => cases h; rw [Nat.zero_add]
  | succ n ih =>
    rw [show n + 1 + k = (n + k) + 1 by omega]
    simp only [Host.Core.run] at h ⊢
    cases hs : M.step s with
    | next u => rw [hs] at h; exact ih h
    | fault r => rw [hs] at h; cases h
    | refused r => rw [hs] at h; cases h

/-- Runs of this machine compose. -/
theorem coreRun_add (n k : Nat) {s t : State} (h : Host.Core.run Sys2Proof.core n s = .next t) :
    Host.Core.run Sys2Proof.core (n + k) s = Host.Core.run Sys2Proof.core k t :=
  run_add_of_next Sys2Proof.core n k h

end Sys2Proof.Machine
end

