-- ==== Sys2Proof/Tests/Slice0.lean ====
section
/-! SUPPORT. The model's own tests. Expected values are the spec's: 95_test_vectors.md (named by the id of the vector), the opcode
map (30_encoding.md R84) and the register table (10_state.md R20). After them, one witness for each obligation that has
hypotheses: a concrete state and operands that meet them. -/

open Sys2Proof Sys2Proof.Machine

namespace Sys2Proof.Tests

/-! ## Small states -/

/-- A machine whose platform has bound the buffer `bytes`, with `BUFLEN` set to its length. -/
def machine (w : Width) (bytes : List Byte) : State :=
  { resetFor w with
    mem := Memory.fill [] 0 bytes
    bound := bytes.length
    buflen := BitVec.ofNat 64 bytes.length }

/-- The same with the table of `p` built. -/
def built (w : Width) (p : Nat) (bytes : List Byte) : State :=
  (machine w bytes).withTable (BitVec.ofNat _ p)

/-- A state with its three operands. -/
def operands (s : State) (a0 a1 a2 : Word) : State := { s with arg0 := a0, arg1 := a1, arg2 := a2 }

/-- The next state of an outcome. -/
def after : Host.Outcome State Fault Refusal → Option State
  | .next t => some t
  | .fault _ | .refused _ => none

/-- The reason an outcome stops for. -/
def stopOf : Host.Outcome State Fault Refusal → Option Fault
  | .fault r => some r
  | .next _ | .refused _ => none

/-- `RES` of the next state. -/
def resAfter (o : Host.Outcome State Fault Refusal) : Option Word := (after o).map (fun t => t.res)

/-- `STATUS` as it reads and `FINFO` of the next state. -/
def statusAfter (o : Host.Outcome State Fault Refusal) : Option (Word × Word) :=
  (after o).map (fun t => (t.status.word, t.finfo))

/-- The bytes of the buffer and the trace of the next state. -/
def bufferAfter (o : Host.Outcome State Fault Refusal) : Option (List Byte × List Transfer) :=
  (after o).map (fun t => ((List.range t.bytes).map (fun a => t.mem.read a), t.bus))

/-- The instruction of a word, or the name of what is wrong with it. -/
def decoded (c : CmdWord) : Option Instr × Option Illegal :=
  match decode c with
  | .ok i => (some i, none)
  | .error e => (none, some e)

/-- "123456789" (2.2). -/
def digits9 : List Byte := [0x31, 0x32, 0x33, 0x34, 0x35, 0x36, 0x37, 0x38, 0x39]

/-- The buffer of 3.3. -/
def getBuffer : List Byte := [0x10, 0x32, 0x54, 0x76, 0x98, 0xBA, 0xDC, 0xFE, 0x5A]

/-- A buffer of `n` equal bytes. -/
def allBytes (n : Nat) (v : Byte) : List Byte := List.replicate n v

/-! ## Decoding: words written out from the opcode map -/

theorem test_decode_crcBuild : decoded 0b00000000_00000000_000000_00_00000001 = (some .crcBuild, none) := by decide
theorem test_decode_crcCmpb : decoded 0b00000000_00000000_000000_00_00000010 = (some .crcCmpb, none) := by decide
theorem test_decode_crcCmpi : decoded 0b00000000_10011010_000000_00_00000011 = (some (.crcCmpi 0x9A), none) := by
  decide
theorem test_decode_bfSet : decoded 0b00000000_00000000_000000_00_00010000 = (some .bfSet, none) := by decide
theorem test_decode_bfGet_b : decoded 0b00000000_00000000_000000_00_00010001 = (some (.bfGet .b), none) := by decide
theorem test_decode_bfGet_h : decoded 0b00000000_00000000_000000_01_00010001 = (some (.bfGet .h), none) := by decide
theorem test_decode_bfGet_w : decoded 0b00000000_00000000_000000_10_00010001 = (some (.bfGet .w), none) := by decide
theorem test_decode_bfGet_d : decoded 0b00000000_00000000_000000_11_00010001 = (some (.bfGet .d), none) := by decide

/-- X1, X2, X7, X8: no such opcode. -/
theorem test_illegal_opcode :
    decoded 0x00000000 = (none, some .opcode) ∧ decoded 0xFFFFFFFF = (none, some .opcode) ∧
    decoded 0x00000004 = (none, some .opcode) ∧ decoded 0x00000012 = (none, some .opcode) := by decide
/-- X6 -/
theorem test_illegal_rsv1 : decoded 0x01000003 = (none, some .rsv1) := by decide
/-- X5 -/
theorem test_illegal_rsv0 : decoded 0x00000411 = (none, some .rsv0) := by decide
/-- X3 -/
theorem test_illegal_imm8 : decoded 0x00010001 = (none, some .imm8) := by decide
/-- X4 -/
theorem test_illegal_tw : decoded 0x00000110 = (none, some .tw) := by decide

/-- No two rows of the opcode map select one word: some bit tested by both has two values. -/
theorem test_rows_disjoint :
    opcodeMap.Pairwise (fun r q => r.mask &&& q.mask &&& (r.pattern ^^^ q.pattern) ≠ 0) := by decide

theorem test_decodeTableWord :
    decodeTableWord 32 0x00FF0003 = some (.crcCmpi 0xFF) ∧ decodeTableWord 32 0x00000012 = none := by decide

/-- Every instruction's word, placed where the step takes its next one, runs as the first after reset: without a table or a
buffer each of them but `CRC.BUILD` enters its fault (C9, R225, R196). -/
theorem test_withFetchWord :
    [0x00000001, 0x00000002, 0x00310003, 0x00000010, 0x00000311].map
      (fun w => statusAfter (step (State.reset.withFetchWord 32 w))) =
    [some (0x02, 0), some (0x21, 0x2), some (0x21, 0x310003), some (0x51, 0x10), some (0x51, 0x311)] := by
  decide +kernel

/-! ## Well-formedness: an ill-formed term for each check -/

theorem test_wf_wr : (AsmLine.wr .arg0 (2 ^ 64)).wf = false := by decide
theorem test_wf_crcCmpi : (AsmLine.crcCmpi 256).wf = false := by decide
theorem test_wf_word : (AsmLine.word (2 ^ 32)).wf = false := by decide
theorem test_wf_buildTable : (Pseudo.buildTable (2 ^ 64)).wf = false := by decide
theorem test_wf_compute :
    (Pseudo.compute (2 ^ 64) 0 none).wf = false ∧ (Pseudo.compute 0 (2 ^ 64) none).wf = false ∧
    (Pseudo.compute 0 0 (some (2 ^ 64))).wf = false := by decide
theorem test_wf_computeSeq :
    (Pseudo.computeSeq [256] none).wf = false ∧ (Pseudo.computeSeq [] (some (2 ^ 64))).wf = false := by decide
theorem test_wf_setBits :
    (Pseudo.setBits (2 ^ 64) 0 0).wf = false ∧ (Pseudo.setBits 0 (2 ^ 64) 0).wf = false ∧
    (Pseudo.setBits 0 0 (2 ^ 64)).wf = false := by decide
theorem test_wf_getBits :
    (Pseudo.getBits .b (2 ^ 64) 0).wf = false ∧ (Pseudo.getBits .b 0 (2 ^ 64)).wf = false := by decide
theorem test_wf_accepts :
    (AsmLine.wr .arg0 (2 ^ 64 - 1)).wf = true ∧ (AsmLine.crcCmpi 255).wf = true ∧
    (Pseudo.computeSeq [0, 255] (some 5)).wf = true := by decide

/-! ## The assembler -/

/-- Lines of R87 and a pseudo-instruction of R88. -/
theorem test_readLine :
    readLine "CRC.CMPI 0x31 ; first byte".toList = some [.crcCmpi 0x31] ∧
    readLine "bf.get.d".toList = some [.bfGet .d] ∧
    readLine "wr CRC_TABLE[255], 0".toList = some [.wr (.crcTable 255) 0] ∧
    readLine "mv ARG0, RES".toList = some [.rd .res, .wrRead .arg0] ∧
    readLine "SetBits 0xAB, 4, 8".toList = some [.wr .arg0 0xAB, .wr .arg1 4, .wr .arg2 8, .bfSet] ∧
    readLine "ComputeSeq [1, 2], 7".toList =
      some [.wr .arg0 7, .crcCmpi 1, .rd .res, .wrRead .arg0, .crcCmpi 2, .rd .res, .wrRead .arg0, .rd .res] ∧
    readLine "ComputeSeq []".toList = some [.wr .arg0 0] ∧
    readLine "bf.get.q".toList = none := by decide

/-- A line of P3 and one of R88, as port operations. -/
theorem test_readProgram :
    readProgram ["wr BUFLEN, 9".toList, "GetBits.h 0, 16".toList] =
      some [.regWrite 6 (.value 9), .regWrite 1 (.value 0), .regWrite 2 (.value 16), .command 0x111 [], .regRead 3] := by
  decide

/-! ## The CRC unit -/

/-- 2.1, `W = 16`, polynomial 0x1021: table entries and status. -/
theorem test_crcBuild_w16 :
    (after (exec .crcBuild (operands (machine .w16 []) 0x1021 0 0))).map
      (fun t => (t.crc.table.toList.map (fun e => e.toNat))[0x80]?) = some (some 0x9188) ∧
    statusAfter (exec .crcBuild (operands (machine .w16 []) 0x1021 0 0)) = some (0x02, 0) := by decide +kernel

/-- X12 -/
theorem test_crcBuild_operandWidth :
    statusAfter (exec .crcBuild (operands (machine .w16 []) 0x04C11DB7 0 0)) = some (0x31, 0x1) := by decide +kernel

/-- 2.2, `W = 32`, polynomial 0x04C11DB7, initial remainder ones. -/
theorem test_crcCmpb_w32 :
    resAfter (exec .crcCmpb (operands (built .w32 0x04C11DB7 digits9) 0xFFFFFFFF 0 9)) = some 0x0376E6E7 := by
  decide +kernel

/-- X17: the range does not wrap. -/
theorem test_crcCmpb_overrun :
    statusAfter (exec .crcCmpb (operands (built .w32 0x04C11DB7 digits9) 0 0xFFFFFFFFFFFFFFFF 1)) = some (0x73, 0x2) := by
  decide +kernel

/-- 2.4, `W = 8`: the shifted remainder is 0. -/
theorem test_crcCmpi_w8 : resAfter (exec (.crcCmpi 0x5A) (operands (built .w8 0x07 []) 0xA5 0 0)) = some 0xF3 := by
  decide +kernel

/-- 2.4, `W = 64`. -/
theorem test_crcCmpi_w64 :
    resAfter (exec (.crcCmpi 0x10) (operands (built .w64 0x42F0E1EBA9EA3693 []) 0x0123456789ABCDEF 0 0))
      = some 0x0788FE9D92C65C7C := by decide +kernel

/-! ## The bit-field unit -/

/-- B6: one window, neighbours kept. -/
theorem test_bfSet_window :
    bufferAfter (exec .bfSet (operands (machine .w32 (allBytes 9 0xA5)) 0 3 12)) =
      some ([0x05, 0x80, 0xA5, 0xA5, 0xA5, 0xA5, 0xA5, 0xA5, 0xA5], [readT 0 8, writeT 0 8]) := by decide +kernel

/-- S5: the split. -/
theorem test_bfSet_split :
    bufferAfter (exec .bfSet (operands (machine .w32 (allBytes 9 0xA5)) 0xFEDCBA9876543210 4 64)) =
      some ([0x05, 0x21, 0x43, 0x65, 0x87, 0xA9, 0xCB, 0xED, 0xAF], [readT 0 8, writeT 0 8, readT 7 2, writeT 7 2]) := by
  decide +kernel

/-- G9: the split. -/
theorem test_bfGet_split :
    resAfter (exec (.bfGet .d) (operands (machine .w8 getBuffer) 0 7 57)) = some 0x1FDB97530ECA864 := by decide +kernel

/-- G17: the fast path, little-endian. -/
theorem test_bfGet_fast :
    resAfter (exec (.bfGet .h) (operands (machine .w8 getBuffer) 0 0 16)) = some 0x3210 := by decide +kernel

/-- X26, X31, X33: no wrap in the range; the lowest cause first. -/
theorem test_field_faults :
    statusAfter (exec .bfSet (operands (machine .w32 (allBytes 9 0)) 0 0xFFFFFFFFFFFFFFF8 8)) = some (0x71, 0x10) ∧
    statusAfter (exec (.bfGet .w) (operands (machine .w32 (allBytes 9 0)) 0 1 64)) = some (0x61, 0x211) ∧
    statusAfter (exec (.bfGet .b) (operands (machine .w32 []) 0 0 9)) = some (0x61, 0x11) := by decide +kernel

/-! ## The ports -/

/-- P3r, P8r: a read-only register, an unmapped number. -/
theorem test_badRegister :
    ((regWrite 3 1 State.reset).status.word, (regWrite 3 1 State.reset).finfo, (regWrite 3 1 State.reset).res)
      = (0x81, 0x100000003, 0) ∧
    ((regRead 255 State.reset).status.word, (regRead 255 State.reset).finfo, (regRead 255 State.reset).rdata)
      = (0x81, 0x1000000FF, 0) := by decide +kernel

/-- P14r -/
theorem test_read_table :
    [7, 257, 511].map (fun n => (regRead n (built .w32 0x04C11DB7 [])).rdata) = [0x04C11DB7, 0x04C11DB7, 0xB1F740B4] := by
  decide +kernel

/-- P10r, P11r, P12r, P13r: the faulted state, and its end. -/
def faulted : State := { machine .w32 (allBytes 9 0xA5) with status := { f := true, tv := false, cause := 4 }, finfo := 0x10 }

theorem test_faulted_state :
    (regRead 9 faulted).status.word = 0x41 ∧ (regRead 9 faulted).finfo = 0x10 ∧ (regWrite 0 5 faulted).arg0 = 0 ∧
    statusAfter (cmdIssue 0x00000000 faulted) = some (0x41, 0x10) ∧
    (resetOp faulted).status.word = 0 ∧ (resetOp faulted).mem.read 8 = 0xA5 := by decide +kernel

/-- Another master's write of a byte that `BF.GET` reads is a race; of a byte outside its footprint it is not; a read of a byte
that `BF.SET` writes is one (R66, R67). -/
theorem test_races :
    stopOf (step { operands (machine .w32 (allBytes 9 0)) 0 8 8 with
      program := [.command 0x00000011 [{ kind := .write, addr := 1, value := 7 }]] }) = some .dataRace ∧
    (after (step { operands (machine .w32 (allBytes 9 0)) 0 8 8 with
      program := [.command 0x00000011 [{ kind := .write, addr := 0, value := 7 }]] })).map (fun t => t.mem.read 0) = some 7 ∧
    stopOf (step { operands (machine .w32 (allBytes 9 0)) 0 8 8 with
      program := [.command 0x00000010 [{ kind := .read, addr := 1, value := 0 }]] }) = some .dataRace := by decide +kernel

/-- With `BUFLEN` beyond what the platform bound no instruction runs, though the bytes it would access be bound or there be
none (R226 (a), U11); register writes go on, so that the host can put it right (R225 (1)). -/
theorem test_bufferNotBound :
    stopOf (step { operands (machine .w32 (allBytes 4 0)) 0 0 8 with buflen := 9, program := [.command 0x00000010 []] })
      = some .bufferNotBound ∧
    stopOf (step { operands (machine .w32 (allBytes 4 0)) 0 0 8 with buflen := 5, program := [.command 0x00000001 []] })
      = some .bufferNotBound ∧
    (after (step { machine .w32 (allBytes 4 0) with buflen := 9, program := [.regWrite 6 (.value 4)] })).map
      (fun t => t.buflen) = some 4 := by decide +kernel

/-- Another master's access at an index that is not bound (R226). -/
theorem test_unboundByte :
    stopOf (step { operands (machine .w32 (allBytes 4 0)) 0 0 8 with
      program := [.command 0x00000011 [{ kind := .read, addr := 4, value := 0 }]] }) = some .unboundByte := by
  decide +kernel

/-! ## Witnesses: the hypotheses of the statements can be met -/

theorem witness_IllegalWordsRaise :
    State.reset.status.f = false ∧
    ([0x00000004, 0x01000003, 0x00000411, 0x00010001, 0x00000110] : List CmdWord).all
      (fun c => opcodeMap.all (fun r => c &&& r.mask != r.pattern)) = true ∧
    (opcodeField 0x04 ≠ 0x01 ∧ opcodeField 0x04 ≠ 0x02 ∧ opcodeField 0x04 ≠ 0x03 ∧ opcodeField 0x04 ≠ 0x10 ∧
      opcodeField 0x04 ≠ 0x11) ∧
    rsv1Field 0x01000003 ≠ 0 ∧ rsv0Field 0x00000411 ≠ 0 ∧
    (imm8Field 0x00010001 ≠ 0 ∧ opcodeField 0x00010001 ≠ 0x03) ∧
    (twField 0x00000110 ≠ 0 ∧ opcodeField 0x00000110 ≠ 0x11) :=
  ⟨rfl, by decide, by decide, by decide, by decide, by decide, by decide⟩

theorem witness_AssemblerLinesGiveTheirWords : 255 < 256 ∧ 2 ^ 32 - 1 < 2 ^ 32 := by decide

theorem witness_ResetSetsEveryRegister :
    ({ faulted with program := [.reset] } : State).program = .reset :: [] ∧
    (256 ≤ (256 : CmdWord).toNat ∧ (256 : CmdWord).toNat ≤ 511) ∧
    (256 ≤ (511 : CmdWord).toNat ∧ (511 : CmdWord).toNat ≤ 511) := ⟨rfl, by decide⟩

/-- A faulted machine with a built table meets the invariant, and steps. -/
theorem witness_StepKeepsTheInvariant :
    Inv { built .w8 0x07 digits9 with status := { f := true, tv := true, cause := 8 }, finfo := 0x100000003 } ∧
    ∃ t, step { built .w8 0x07 digits9 with status := { f := true, tv := true, cause := 8 }, finfo := 0x100000003 }
      = .next t := by
  refine ⟨⟨Memory.wf_fill Memory.wf_nil _ _, fun _ i => buildTable_get _ _ _, by simp, ?_, ?_, ?_⟩, _, rfl⟩
  · intro _; dsimp only; decide
  · intro _; dsimp only; decide
  · intro x hx; cases hx

theorem witness_CrcStepIsBitwiseDivision :
    (8 ≤ 8 ∧ ∀ i : Fin 256, (buildTable (0x07 : BitVec 8))[i] = tableEntry 0x07 (BitVec.ofNat 8 i.val)) ∧
    (8 ≤ 64 ∧ ∀ i : Fin 256, (buildTable (0x1B : BitVec 64))[i] = tableEntry 0x1B (BitVec.ofNat 8 i.val)) :=
  ⟨⟨by decide, fun i => buildTable_get _ _ _⟩, by decide, fun i => buildTable_get _ _ _⟩

theorem witness_TableFacts : 8 ≤ 8 := le_refl 8

theorem witness_BuildSetsTableAndPolynomial :
    (operands (machine .w16 []) 0xFFFF 0 0).arg0.toNat < 2 ^ (operands (machine .w16 []) 0xFFFF 0 0).crc.width.bits ∧
    (operands (machine .w16 []) 0x10000 0 0).arg0.toNat ≥ 2 ^ (operands (machine .w16 []) 0x10000 0 0).crc.width.bits := by
  decide

/-- A built 8-bit machine over "123456789", with its operands. -/
def ready (a0 a1 a2 : Word) : State := operands (built .w8 0x07 digits9) a0 a1 a2

theorem witness_CmpbComputesTheRange :
    State.reset.status.tv = false ∧
    ((ready 0x100 0 0).status.tv = true ∧ (ready 0x100 0 0).arg0.toNat ≥ 2 ^ (ready 0x100 0 0).crc.width.bits) ∧
    ((ready 0xFF 10 0).status.tv = true ∧ (ready 0xFF 10 0).arg0.toNat < 2 ^ (ready 0xFF 10 0).crc.width.bits ∧
      (ready 0xFF 10 0).arg1.toNat + (ready 0xFF 10 0).arg2.toNat > (ready 0xFF 10 0).buflen.toNat) ∧
    ((ready 0xFF 0 9).status.tv = true ∧ (ready 0xFF 0 9).arg0.toNat < 2 ^ (ready 0xFF 0 9).crc.width.bits ∧
      (ready 0xFF 0 9).arg1.toNat + (ready 0xFF 0 9).arg2.toNat ≤ (ready 0xFF 0 9).buflen.toNat) := by decide +kernel

theorem witness_CmpiAdvancesTheRemainder :
    State.reset.status.tv = false ∧
    ((ready 0x100 0 0).status.tv = true ∧ (ready 0x100 0 0).arg0.toNat ≥ 2 ^ (ready 0x100 0 0).crc.width.bits) ∧
    ((ready 0xFF 0 0).status.tv = true ∧ (ready 0xFF 0 0).arg0.toNat < 2 ^ (ready 0xFF 0 0).crc.width.bits) := by
  decide +kernel

theorem witness_RemainderPassesTheOperandCheck :
    (ready 0 0 9).status.f = false ∧
    (∃ t, exec .crcCmpb (ready 0 0 9) = .next t ∧ t.status.f = false) ∧
    (∃ t, exec (.crcCmpi 0x31) (ready 0 0 9) = .next t ∧ t.status.f = false) := by
  have hb : rangeCheck (ready 0 0 9) = none := by decide +kernel
  have hi : stepCheck (ready 0 0 9) = none := by decide +kernel
  refine ⟨rfl, ⟨cmpbEffect (ready 0 0 9), ?_, ?_⟩, ?_⟩
  · rw [exec, execCrcCmpb, hb]; rfl
  · simp only [cmpbEffect, crcRange_eq]; rfl
  · rw [exec, execCrcCmpi, hi]; exact ⟨_, rfl, rfl⟩

theorem witness_RangesCompose :
    (ready 0xFF 0 0).status.tv = true ∧ (ready 0xFF 0 0).arg0.toNat < 2 ^ (ready 0xFF 0 0).crc.width.bits ∧
    (ready 0xFF 0 0).arg1.toNat + (4 + 5) ≤ (ready 0xFF 0 0).buflen.toNat := by decide +kernel

theorem witness_ComputeSeqComputes :
    (ready 0 0 0).status.f = false ∧ (ready 0 0 0).status.tv = true ∧ (ready 0 0 0).buflen.toNat ≤ (ready 0 0 0).bound ∧
    (some 0xFF).getD 0 < 2 ^ (ready 0 0 0).crc.width.bits ∧ none.getD 0 < 2 ^ (ready 0 0 0).crc.width.bits ∧
    [0, 255] ≠ ([] : List Nat) ∧ ∀ b ∈ [0, 255], b < 256 := by decide +kernel

/-- A 9-byte machine with the operands of a field. -/
def field (off len : Word) : State := operands (machine .w32 getBuffer) 0xFEDCBA9876543210 off len

theorem witness_FieldChecksInOrder :
    (field 0 65).arg2.toNat > 64 ∧ (field 0 0).arg2.toNat = 0 ∧
    ((field 0 9).arg2.toNat ≤ 64 ∧ (field 0 9).arg2.toNat > ResultWidth.b.bits) ∧
    (1 ≤ (field 72 1).arg2.toNat ∧ (field 72 1).arg2.toNat ≤ 64 ∧
      (field 72 1).arg1.toNat + (field 72 1).arg2.toNat > 8 * (field 72 1).buflen.toNat) ∧
    (1 ≤ (field 65 8).arg2.toNat ∧ (field 65 8).arg2.toNat ≤ ResultWidth.b.bits ∧
      (field 65 8).arg1.toNat + (field 65 8).arg2.toNat > 8 * (field 65 8).buflen.toNat) := by decide

/-- The operands of a 64-bit field that ends at the end of the buffer, and of one bit at its start: they meet the hypotheses of
every statement about a legal field. -/
theorem witness_legal_fields :
    (1 ≤ (field 8 64).arg2.toNat ∧ (field 8 64).arg2.toNat ≤ 64 ∧ (field 8 64).arg2.toNat ≤ ResultWidth.d.bits ∧
      (field 8 64).arg1.toNat + (field 8 64).arg2.toNat ≤ 8 * (field 8 64).buflen.toNat) ∧
    (1 ≤ (field 0 1).arg2.toNat ∧ (field 0 1).arg2.toNat ≤ 64 ∧ (field 0 1).arg2.toNat ≤ ResultWidth.b.bits ∧
      (field 0 1).arg1.toNat + (field 0 1).arg2.toNat ≤ 8 * (field 0 1).buflen.toNat) := by decide

theorem witness_SetWritesTheField :
    (1 ≤ (field 8 64).arg2.toNat ∧ (field 8 64).arg2.toNat ≤ 64 ∧
      (field 8 64).arg1.toNat + (field 8 64).arg2.toNat ≤ 8 * (field 8 64).buflen.toNat) ∧
    ¬ ∃ x ∈ setFootprint 9 8 64, x.kind = .write ∧ x.addr ≤ 0 ∧ 0 < x.addr + x.len := by decide

theorem witness_GetReadsTheField :
    1 ≤ (field 8 64).arg2.toNat ∧ (field 8 64).arg2.toNat ≤ ResultWidth.d.bits ∧
      (field 8 64).arg1.toNat + (field 8 64).arg2.toNat ≤ 8 * (field 8 64).buflen.toNat := by decide

theorem witness_FieldsAreSlicesOfTheBuffer :
    1 ≤ (field 7 64).arg2.toNat ∧ (field 7 64).arg2.toNat ≤ 64 ∧
      (field 7 64).arg1.toNat + (field 7 64).arg2.toNat ≤ 8 * (field 7 64).buflen.toNat ∧
      (field 7 64).arg2.toNat ≤ ResultWidth.d.bits := by decide

theorem witness_SetThenGetRoundTrips :
    1 ≤ (field 1 64).arg2.toNat ∧ (field 1 64).arg2.toNat ≤ ResultWidth.d.bits ∧
      (field 1 64).arg1.toNat + (field 1 64).arg2.toNat ≤ 8 * (field 1 64).buflen.toNat := by decide

theorem witness_DisjointFieldsDoNotInterfere :
    (1 ≤ (field 4 60).arg2.toNat ∧ (field 4 60).arg2.toNat ≤ 64 ∧
      (field 4 60).arg1.toNat + (field 4 60).arg2.toNat ≤ 8 * (field 4 60).buflen.toNat) ∧
    (1 ≤ (4 : Word).toNat ∧ (4 : Word).toNat ≤ ResultWidth.b.bits ∧
      (0 : Word).toNat + (4 : Word).toNat ≤ 8 * (field 4 60).buflen.toNat ∧
      (0 : Word).toNat + (4 : Word).toNat ≤ (field 4 60).arg1.toNat) ∧
    (1 ≤ (8 : Word).toNat ∧ (8 : Word).toNat ≤ ResultWidth.b.bits ∧
      (64 : Word).toNat + (8 : Word).toNat ≤ 8 * (field 4 60).buflen.toNat ∧
      (field 4 60).arg1.toNat + (field 4 60).arg2.toNat ≤ (64 : Word).toNat) := by decide

theorem witness_FastAndSlowPathsAgree :
    8 % 8 = 0 ∧ 64 % 8 = 0 ∧ 1 ≤ 64 ∧ 64 ≤ 64 ∧ 8 + 64 ≤ 8 * (field 8 64).buflen.toNat := by decide

theorem witness_SourceBitsAboveTheFieldAreIgnored :
    1 ≤ (field 71 1).arg2.toNat ∧ (field 71 1).arg2.toNat ≤ 64 ∧
      (field 71 1).arg1.toNat + (field 71 1).arg2.toNat ≤ 8 * (field 71 1).buflen.toNat := by decide

/-- Two machines of different widths and registers, alike in the field's one bit and not outside it. -/
theorem witness_GetDependsOnTheFieldOnly :
    (field 4 1).arg1 = (operands (machine .w8 (allBytes 9 0xFF)) 0 4 1).arg1 ∧
    (field 4 1).arg2 = (operands (machine .w8 (allBytes 9 0xFF)) 0 4 1).arg2 ∧
    (field 4 1).buflen = (operands (machine .w8 (allBytes 9 0xFF)) 0 4 1).buflen ∧
    (field 4 1).status.f = false ∧ (operands (machine .w8 (allBytes 9 0xFF)) 0 4 1).status.f = false ∧
    (∀ k, (field 4 1).arg1.toNat ≤ k → k < (field 4 1).arg1.toNat + (field 4 1).arg2.toNat →
      Memory.bit (field 4 1).mem k = Memory.bit (operands (machine .w8 (allBytes 9 0xFF)) 0 4 1).mem k) ∧
    (∃ t, exec (.bfGet .b) (field 4 1) = .next t) ∧
    (∃ t, exec (.bfGet .b) (operands (machine .w8 (allBytes 9 0xFF)) 0 4 1) = .next t) := by
  refine ⟨rfl, rfl, by decide, rfl, rfl, ?_, ?_, ?_⟩
  · intro k h1 h2
    have : k = 4 := by
      have e1 : (field 4 1).arg1.toNat = 4 := rfl
      have e2 : (field 4 1).arg2.toNat = 1 := rfl
      omega
    subst this
    decide
  · rcases exec_cases (.bfGet .b) (field 4 1) with ⟨c, h⟩ | ⟨t, h, -⟩
    · exact ⟨_, h⟩
    · exact ⟨t, h⟩
  · rcases exec_cases (.bfGet .b) (operands (machine .w8 (allBytes 9 0xFF)) 0 4 1) with ⟨c, h⟩ | ⟨t, h, -⟩
    · exact ⟨_, h⟩
    · exact ⟨t, h⟩

/-- A word that decodes to nothing, one whose field is too wide for its type and for the buffer, with the lower cause first, and
one no condition holds for. -/
theorem witness_LowestCauseIsReported :
    State.reset.status.f = false ∧ (∃ e, decode 0x00000012 = .error e) ∧
    (decode 0x00000011 = .ok (.bfGet .b) ∧ faultCondition (.bfGet .b) { field 0 9 with buflen := 0 } .typeWidth ∧
      faultCondition (.bfGet .b) { field 0 9 with buflen := 0 } .bufferOverrun ∧
      ∀ other, faultCondition (.bfGet .b) { field 0 9 with buflen := 0 } other → Cause.typeWidth.code.toNat ≤ other.code.toNat) ∧
    (decode 0x00000002 = .ok .crcCmpb ∧ ∀ cause, ¬ faultCondition .crcCmpb (ready 0xFF 0 9) cause) := by
  have hb : ∀ cause, ¬ faultCondition .crcCmpb (ready 0xFF 0 9) cause := by
    have h1 : ¬ (ready 0xFF 0 9).status.tv = false := by decide +kernel
    have h2 : ¬ (ready 0xFF 0 9).arg0.toNat ≥ 2 ^ (ready 0xFF 0 9).crc.width.bits := by decide +kernel
    have h3 : ¬ (ready 0xFF 0 9).arg1.toNat + (ready 0xFF 0 9).arg2.toNat > (ready 0xFF 0 9).buflen.toNat := by
      decide +kernel
    intro cause
    cases cause <;> first | exact h1 | exact h2 | exact h3 | exact id
  refine ⟨rfl, ⟨_, rfl⟩, ⟨rfl, by unfold faultCondition; decide, by unfold faultCondition; decide, ?_⟩, rfl, hb⟩
  intro other h
  cases other <;> first | exact absurd h id | decide | exact absurd h (by unfold faultCondition; decide)

theorem witness_FaultsAreAllOrNothing :
    (field 0 65).status.f = false ∧
    (after (cmdIssue 0x00000010 (field 0 65))).map (fun t => t.status.f) = some true ∧
    (regWrite 3 1 (field 0 65)).status.f = true ∧ (regRead 9 (field 0 65)).status.f = true := by decide

theorem witness_FaultedStateIgnoresCommandsAndWrites :
    faulted.status.f = true ∧ Reg.ofNumber 9 = none ∧ Reg.ofNumber 512 = none ∧
    ({ faulted with program := [.command 0x00000001 []] } : State).program = .command 0x00000001 [] :: [] ∧
    ({ faulted with program := [.regWrite 0 .lastRead] } : State).program = .regWrite 0 .lastRead :: [] ∧
    ({ faulted with program := [.regRead 9] } : State).program = .regRead 9 :: [] := by decide

/-- A faulted state that a reset step leaves, and one that a command step keeps. -/
theorem witness_OnlyResetLeavesTheFaultedState :
    faulted.status.f = true ∧
    (∃ t, step { faulted with program := [.reset] } = .next t) ∧
    (∃ t, step { faulted with program := [.command 0x00000001 []] } = .next t) :=
  ⟨rfl, ⟨_, rfl⟩, ⟨_, rfl⟩⟩

theorem witness_TransfersAreLittleEndian : 8 ≤ 8 ∧ 7 < 8 ∧ (2 < 3 ∨ 3 + 8 ≤ 2) ∧ (11 < 3 ∨ 3 + 8 ≤ 11) := by decide

theorem witness_ByteOrderWithinATransferIsFree :
    Memory.wf (Memory.fill [] 0 digits9) ∧ 8 ≤ 8 ∧ [7, 6, 5, 4, 3, 2, 1, 0].Perm (List.range 8) := by decide +kernel

/-- A command with another master's access, whose issue answers a next state, and a machine with a byte too few bound. -/
theorem witness_RacesAndUnboundBytesStop :
    ({ field 8 8 with bound := 8 } : State).status.f = false ∧
    ({ field 8 8 with bound := 8 } : State).bound < ({ field 8 8 with bound := 8 } : State).buflen.toNat ∧
    ∃ t, ({ field 8 8 with program := [.command 0x00000011 [{ kind := .write, addr := 1, value := 7 }]] } : State).program =
        .command 0x00000011 [{ kind := .write, addr := 1, value := 7 }] :: [] ∧
      cmdIssue 0x00000011 { field 8 8 with program := [], bus := [] } = .next t := ⟨rfl, by decide, _, rfl, rfl⟩

theorem witness_ConcurrentReadsAreHarmless :
    decode 0x00000011 = .ok (.bfGet .b) ∧ decode 0x00000002 = .ok .crcCmpb ∧
    ∀ y ∈ ([{ kind := .read, addr := 8, value := 0 }] : List ForeignAccess),
      y.kind = .read ∧ y.addr < (field 8 8).bound :=
  ⟨rfl, rfl, by decide⟩

theorem witness_StepRunsTheDecodedInstruction :
    ({ field 8 8 with program := [.command 0x00000011 []] } : State).program = .command 0x00000011 [] :: [] ∧
    (field 8 8).status.f = false ∧ (field 8 8).buflen.toNat ≤ (field 8 8).bound ∧ decode 0x00000011 = .ok (.bfGet .b) :=
  ⟨rfl, rfl, by decide, rfl⟩

theorem witness_FetchWordRunsItsInstruction :
    (field 8 8).status.f = false ∧ (field 8 8).buflen.toNat ≤ (field 8 8).bound := ⟨rfl, by decide⟩

theorem witness_IdleWithoutAnOperation : State.reset.program = [] := rfl

/-- A reset step of a machine with a table, and a build step of one without. -/
theorem witness_TableValidUntilReset :
    (∃ t, step { built .w8 0x07 [] with program := [.reset] } = .next t ∧ (built .w8 0x07 []).status.tv = true ∧
      t.status.tv = false) ∧
    (after (step { machine .w8 [] with program := [.command 0x00000001 []] })).map (fun t => t.status.tv) = some true ∧
    (machine .w8 []).status.tv = false :=
  ⟨⟨_, rfl, rfl, rfl⟩, by decide +kernel, rfl⟩

theorem witness_OnlyBuildWritesTheTable : ∃ t, step { built .w8 0x07 [] with program := [.reset] } = .next t := ⟨_, rfl⟩

theorem witness_ReadingInstructionsRepeat :
    (after (exec (.bfGet .b) (field 8 8))).map (fun t => t.status.f) = some false ∧
    (after (exec .crcCmpb (ready 0 0 9))).map (fun t => t.status.f) = some false := by decide +kernel

theorem witness_RegReadReturns :
    (built .w8 0x07 []).status.tv = true ∧ State.reset.status.tv = false ∧ faulted.status.f = true ∧
    State.reset.status.f = false ∧
    (256 ≤ (256 : CmdWord).toNat ∧ (256 : CmdWord).toNat ≤ 511) ∧
    (256 ≤ (511 : CmdWord).toNat ∧ (511 : CmdWord).toNat ≤ 511) ∧
    (9 ≤ (9 : CmdWord).toNat ∧ (9 : CmdWord).toNat < 256) ∧
    (9 ≤ (255 : CmdWord).toNat ∧ (255 : CmdWord).toNat < 256) ∧
    (9 ≤ (512 : CmdWord).toNat ∧ 512 ≤ (512 : CmdWord).toNat) :=
  ⟨rfl, rfl, rfl, rfl, by decide, by decide, by decide, by decide, by decide⟩

theorem witness_RegWriteWrites :
    faulted.status.f = true ∧ State.reset.status.f = false ∧
    ([3, 4, 5, 7, 8, 9, 255, 256, 511, 512] : List CmdWord).all
      (fun n => n != 0 && n != 1 && n != 2 && n != 6) = true := by decide

end Sys2Proof.Tests
end

section
/-! PROOFS. The two units and each other's state (00_scope.md R4; 20_memory.md R50): each instruction as a checked effect, what
a checked effect keeps and what it does not depend on, and the statement that the units are independent. -/

namespace Sys2Proof.Machine

/-! ## The instructions as checked effects -/

theorem exec_crcBuild (s : State) :
    exec .crcBuild s = checked (buildCheck s) .crcBuild s (s.withTable s.crcOperand) := rfl

theorem exec_crcCmpb (s : State) : exec .crcCmpb s = checked (rangeCheck s) .crcCmpb s (cmpbEffect s) := rfl

theorem exec_crcCmpi (imm8 : Byte) (s : State) :
    exec (.crcCmpi imm8) s = checked (stepCheck s) (.crcCmpi imm8) s
      (s.withRes ((crcStep s.crc.table s.crcOperand imm8).setWidth 64)) := rfl

theorem exec_bfSet (s : State) :
    exec .bfSet s = checked (fieldCheck none s) .bfSet s (writeField s.off s.len s.arg0 s) := rfl

theorem exec_bfGet (tw : ResultWidth) (s : State) :
    exec (.bfGet tw) s = checked (fieldCheck (some tw) s) (.bfGet tw) s
      ((readField s.off s.len s).2.withRes (readField s.off s.len s).1) := rfl

/-- Every instruction, faulting or not, answers a next state (R201). -/
theorem exec_next (i : Instr) (s : State) : ∃ t, exec i s = .next t := by
  rcases exec_cases i s with ⟨c, h⟩ | ⟨t, h, -⟩
  · exact ⟨_, h⟩
  · exact ⟨t, h⟩

/-! ## What a checked effect keeps, and what it does not depend on -/

/-- What fault entry and the effect both keep, the checked instruction keeps. -/
theorem checked_keeps {α : Type} (field : State → α) {check : Option Cause} {i : Instr} {s t u : State}
    (h : checked check i s t = .next u) (hraise : ∀ c info, field (s.raise c info) = field s)
    (heffect : field t = field s) : field u = field s := by
  rcases checked_cases h with ⟨-, rfl⟩ | ⟨c, -, rfl⟩
  · exact heffect
  · exact hraise _ _

/-- Where fault entry commutes with an update of the state, so does a checked instruction whose check is the same. -/
theorem checked_update (update : State → State) {check : Option Cause} {i : Instr} {s t u : State}
    (h : checked check i s t = .next u)
    (hraise : ∀ c info, (update s).raise c info = update (s.raise c info)) :
    checked check i (update s) (update t) = .next (update u) := by
  rcases checked_cases h with ⟨rfl, rfl⟩ | ⟨c, rfl, rfl⟩
  · exact checked_none ..
  · rw [checked_some, hraise]

/-! ## The bit-field unit and the CRC engine -/

/-- The whole field write uses no register of the CRC engine: it takes only `BUFLEN` and the buffer from the state. -/
theorem writeField_withCrc (off len : Nat) (v : Word) (s : State) (crc : CrcEngine) :
    writeField off len v { s with crc := crc } = { writeField off len v s with crc := crc } := by
  rw [writeField, writeField, setSlow, setSlow]
  split
  · rfl
  · split <;> rfl

/-- The whole field read uses no register of the CRC engine. -/
theorem readField_withCrc (off len : Nat) (s : State) (crc : CrcEngine) :
    readField off len { s with crc := crc } =
      ((readField off len s).1, { (readField off len s).2 with crc := crc }) := by
  rw [readField, readField, getSlow, getSlow]
  split
  · rfl
  · split <;> rfl

theorem exec_bitField_keeps_crc {i : Instr} (hi : i = .bfSet ∨ ∃ tw, i = .bfGet tw) {s t : State}
    (h : exec i s = .next t) : t.crc = s.crc := by
  rcases hi with rfl | ⟨tw, rfl⟩
  · rw [exec_bfSet] at h
    exact checked_keeps State.crc h (fun _ _ => rfl) (by rw [writeField_eq])
  · rw [exec_bfGet] at h
    exact checked_keeps State.crc h (fun _ _ => rfl) (by rw [State.withRes_crc, readField_state])

theorem exec_bitField_withCrc {i : Instr} (hi : i = .bfSet ∨ ∃ tw, i = .bfGet tw) {s t : State}
    (h : exec i s = .next t) (crc : CrcEngine) : exec i { s with crc := crc } = .next { t with crc := crc } := by
  rcases hi with rfl | ⟨tw, rfl⟩
  · rw [exec_bfSet] at h ⊢
    rw [writeField_withCrc]
    exact checked_update (fun u => { u with crc := crc }) h (fun _ _ => rfl)
  · rw [exec_bfGet] at h ⊢
    rw [readField_withCrc]
    exact checked_update (fun u => { u with crc := crc }) h (fun _ _ => rfl)

/-! ## The CRC unit and the buffer -/

/-- `CRC.CMPB` only reads the buffer: beside `RES` it changes nothing but the trace (R111, R112). -/
theorem cmpbEffect_mem (s : State) : (cmpbEffect s).mem = s.mem := by
  rw [cmpbEffect, crcRange_eq]; rfl

theorem exec_crc_keeps_mem {i : Instr} (hi : i = .crcBuild ∨ i = .crcCmpb ∨ ∃ d, i = .crcCmpi d) {s t : State}
    (h : exec i s = .next t) : t.mem = s.mem := by
  rcases hi with rfl | rfl | ⟨d, rfl⟩
  · rw [exec_crcBuild] at h
    exact checked_keeps State.mem h (fun _ _ => rfl) rfl
  · rw [exec_crcCmpb] at h
    exact checked_keeps State.mem h (fun _ _ => rfl) (cmpbEffect_mem s)
  · rw [exec_crcCmpi] at h
    exact checked_keeps State.mem h (fun _ _ => rfl) rfl

theorem exec_crcBuild_crcCmpi_withMem {i : Instr} (hi : i = .crcBuild ∨ ∃ d, i = .crcCmpi d) {s t : State}
    (h : exec i s = .next t) (mem : Memory) : exec i { s with mem := mem } = .next { t with mem := mem } := by
  rcases hi with rfl | ⟨d, rfl⟩
  · rw [exec_crcBuild] at h ⊢
    exact checked_update (fun u => { u with mem := mem }) h (fun _ _ => rfl)
  · rw [exec_crcCmpi] at h ⊢
    exact checked_update (fun u => { u with mem := mem }) h (fun _ _ => rfl)

/-- Settles O44: each instruction is a checked effect, and both fault entry and the effect keep the other unit's state and
commute with a change of it. -/
theorem unitsAreIndependent : Obligations.UnitsAreIndependent := by
  unfold Obligations.UnitsAreIndependent
  intro s crc mem
  refine ⟨fun i hi => ?bitField, fun i hi => ?crcKeeps, fun i hi => ?crcIgnores⟩ <;>
    obtain ⟨t, ht⟩ := exec_next i s
  case bitField => exact ⟨t, ht, exec_bitField_keeps_crc hi ht, exec_bitField_withCrc hi ht crc⟩
  case crcKeeps => exact ⟨t, ht, exec_crc_keeps_mem hi ht⟩
  case crcIgnores => exact ⟨t, ht, exec_crcBuild_crcCmpi_withMem hi ht mem⟩

end Sys2Proof.Machine
end

section
/-! PROOFS. What an instruction, a command and an action of the host or its platform can do, said once each: a fault, a built
table, or an effect on the result, the buffer and a trace that stays below `BUFLEN` (10_state.md R21, R26, R27, R29, R30;
20_memory.md R53). The statements about operands, the table and the invariant are read off these. -/

namespace Sys2Proof.Machine

/-! ## The checks of the instructions -/

theorem buildCheck_ne_badRegister (s : State) : buildCheck s ≠ some .badRegister := by
  rw [buildCheck]
  split <;> simp

theorem stepCheck_ne_badRegister (s : State) : stepCheck s ≠ some .badRegister := by
  rw [stepCheck]
  split_ifs <;> simp

theorem rangeCheck_ne_badRegister (s : State) : rangeCheck s ≠ some .badRegister := by
  rw [rangeCheck]
  split
  · next c hc => exact hc ▸ stepCheck_ne_badRegister s
  · split <;> simp

theorem fieldCheck_ne_badRegister (tw : Option ResultWidth) (s : State) : fieldCheck tw s ≠ some .badRegister := by
  rw [fieldCheck]
  split_ifs <;> simp

/-- The range of a `CRC.CMPB` that passes its checks fits the buffer (R111). -/
theorem rangeCheck_none {s : State} (h : rangeCheck s = none) : s.off + s.len ≤ s.bytes := by
  rw [rangeCheck] at h
  split at h
  · cases h
  · split at h
    · cases h
    · omega

/-- A bit-field instruction passes its checks exactly when its length is legal for its type and the field fits the buffer
(R140). -/
theorem fieldCheck_none_iff (tw : Option ResultWidth) (s : State) :
    fieldCheck tw s = none ↔
      1 ≤ s.len ∧ s.len ≤ 64 ∧ tooWide s.len tw = false ∧ s.off + s.len ≤ 8 * s.bytes := by
  rw [fieldCheck]
  split_ifs <;> simp_all
  omega

/-- The checks of a bit-field instruction read its operands and `BUFLEN` only. -/
theorem fieldCheck_congr {s s' : State} (tw : Option ResultWidth) (h1 : s.arg1 = s'.arg1) (h2 : s.arg2 = s'.arg2)
    (hb : s.buflen = s'.buflen) : fieldCheck tw s = fieldCheck tw s' := by
  simp only [fieldCheck, State.off, State.len, State.bytes, h1, h2, hb]

/-! ## Traces below BUFLEN -/

/-- From `s` to `t` the trace has grown, by transfers below `BUFLEN` only (R53). -/
def TracesWithin (s t : State) : Prop :=
  ∃ ts, t.bus = s.bus ++ ts ∧ ∀ x ∈ ts, x.addr + x.len ≤ s.bytes

theorem TracesWithin.of_bus_eq {s t : State} (h : t.bus = s.bus) : TracesWithin s t :=
  ⟨[], by simp [h], by simp⟩

theorem TracesWithin.trans {s t u : State} (h : TracesWithin s t) (hb : t.bytes = s.bytes) (h' : TracesWithin t u) :
    TracesWithin s u := by
  obtain ⟨ts, hts, hin⟩ := h
  obtain ⟨us, hus, hin'⟩ := h'
  refine ⟨ts ++ us, by rw [hus, hts, List.append_assoc], fun x hx => ?_⟩
  rcases List.mem_append.mp hx with hx | hx
  · exact hin x hx
  · exact hb ▸ hin' x hx

/-- A transfer of no bytes is no event, so one that ends below `BUFLEN` if it has a byte at all stays there. -/
theorem transferOf_within {kind : AccessKind} {a n bytes : Nat} (h : n ≠ 0 → a + n ≤ bytes) :
    ∀ x ∈ transferOf kind a n, x.addr + x.len ≤ bytes := by
  rw [transferOf]
  split
  · simp
  · next hn => simpa using h hn

/-- The clipped window ends at `BUFLEN` at the latest, or is empty (R61). -/
theorem add_clip_le {bytes a : Nat} (h : clip bytes a ≠ 0) : a + clip bytes a ≤ bytes := by
  have hc : clip bytes a ≤ bytes - a := Nat.min_le_right _ _
  omega

theorem set56_tracesWithin (off len : Nat) (v : Word) (s : State) : TracesWithin s (set56 off len v s) := by
  refine ⟨_, by rw [set56_eq, List.append_assoc], fun x hx => ?_⟩
  rcases List.mem_append.mp hx with hx | hx <;> exact transferOf_within add_clip_le x hx

theorem get56_tracesWithin (off len : Nat) (s : State) : TracesWithin s (get56 off len s).2 :=
  ⟨_, rfl, transferOf_within add_clip_le⟩

/-- Every transfer of a field write is below `BUFLEN`, whatever its path (R62, R143). -/
theorem writeField_tracesWithin {off len : Nat} (v : Word) {s : State} (h : off + len ≤ 8 * s.bytes) :
    TracesWithin s (writeField off len v s) := by
  rw [writeField, setSlow]
  split
  · exact ⟨_, rfl, transferOf_within fun _ => by omega⟩
  · split
    · exact set56_tracesWithin _ _ _ _
    · exact (set56_tracesWithin off 56 v s).trans rfl (set56_tracesWithin _ (len - 56) _ _)

/-- Every transfer of a field read is below `BUFLEN`, whatever its path (R62, R143). -/
theorem readField_tracesWithin {off len : Nat} {s : State} (h : off + len ≤ 8 * s.bytes) :
    TracesWithin s (readField off len s).2 := by
  rw [readField, getSlow]
  split
  · exact ⟨_, rfl, transferOf_within fun _ => by omega⟩
  · split
    · exact get56_tracesWithin _ _ _
    · exact (get56_tracesWithin off 56 s).trans rfl (get56_tracesWithin _ (len - 56) _)

theorem rangeFootprint_within {base len bytes : Nat} (h : base + len ≤ bytes) :
    ∀ x ∈ rangeFootprint base len, x.addr + x.len ≤ bytes := by
  intro x hx
  obtain ⟨i, hi, rfl⟩ := List.mem_map.mp hx
  have := List.mem_range.mp hi
  show base + i + 1 ≤ bytes
  omega

/-! ## What an instruction can do -/

/-- From `s` to `t` at most `RES`, the buffer and the trace have changed: the buffer keeps its canonical form, and the trace
has grown below `BUFLEN`. -/
structure DataEffect (s t : State) : Prop where
  frame : ∃ res mem bus, t = { s with res := res, mem := mem, bus := bus }
  memory : Memory.wf s.mem → Memory.wf t.mem
  trace : TracesWithin s t

theorem DataEffect.refl (s : State) : DataEffect s s :=
  ⟨⟨s.res, s.mem, s.bus, rfl⟩, id, .of_bus_eq rfl⟩

theorem DataEffect.withRes (s : State) (v : Word) : DataEffect s (s.withRes v) :=
  ⟨⟨v, s.mem, s.bus, rfl⟩, id, .of_bus_eq rfl⟩

theorem cmpbEffect_dataEffect {s : State} (h : s.off + s.len ≤ s.bytes) : DataEffect s (cmpbEffect s) := by
  rw [cmpbEffect, crcRange_eq]
  exact ⟨⟨_, s.mem, _, rfl⟩, id, ⟨_, rfl, rangeFootprint_within h⟩⟩

theorem writeField_dataEffect {off len : Nat} (v : Word) {s : State} (h : off + len ≤ 8 * s.bytes) :
    DataEffect s (writeField off len v s) :=
  ⟨⟨s.res, _, _, writeField_eq off len v s⟩, writeField_wf, writeField_tracesWithin v h⟩

theorem readField_dataEffect {off len : Nat} (v : Word) {s : State} (h : off + len ≤ 8 * s.bytes) :
    DataEffect s ((readField off len s).2.withRes v) where
  frame := ⟨v, s.mem, _, by rw [readField_state]; rfl⟩
  memory := by rw [readField_state]; exact id
  trace := readField_tracesWithin h

/-- A checked instruction enters a fault that is not a register-port fault, or has passed its check and has its effect. -/
theorem checked_raise_or_effect {check : Option Cause} {i : Instr} {s t u : State} (hc : check ≠ some .badRegister)
    (h : checked check i s t = .next u) :
    (∃ c ≠ Cause.badRegister, u = s.raise c ((encode i).setWidth 64)) ∨ (check = none ∧ u = t) := by
  rcases checked_cases h with h | ⟨c, rfl, hu⟩
  · exact .inr h
  · exact .inl ⟨c, fun hb => hc (by rw [hb]), hu⟩

/-- What an instruction can do: it enters a fault with its own word in `FINFO`, builds the table, or has an effect on `RES`,
the buffer and the trace only. -/
theorem exec_next_cases {i : Instr} {s t : State} (h : exec i s = .next t) :
    (∃ c ≠ Cause.badRegister, t = s.raise c ((encode i).setWidth 64)) ∨
    (i = .crcBuild ∧ t = s.withTable s.crcOperand) ∨ DataEffect s t := by
  cases i with
  | crcBuild =>
    rw [exec_crcBuild] at h
    exact (checked_raise_or_effect (buildCheck_ne_badRegister s) h).imp_right fun ⟨_, ht⟩ => .inl ⟨rfl, ht⟩
  | crcCmpb =>
    rw [exec_crcCmpb] at h
    exact (checked_raise_or_effect (rangeCheck_ne_badRegister s) h).imp_right fun ⟨hc, ht⟩ =>
      .inr (ht ▸ cmpbEffect_dataEffect (rangeCheck_none hc))
  | crcCmpi imm8 =>
    rw [exec_crcCmpi] at h
    exact (checked_raise_or_effect (stepCheck_ne_badRegister s) h).imp_right fun ⟨_, ht⟩ =>
      .inr (ht ▸ .withRes s _)
  | bfSet =>
    rw [exec_bfSet] at h
    refine (checked_raise_or_effect (fieldCheck_ne_badRegister none s) h).imp_right fun ⟨hc, ht⟩ => .inr ?_
    obtain ⟨-, -, -, hfit⟩ := (fieldCheck_none_iff none s).mp hc
    exact ht ▸ writeField_dataEffect s.arg0 hfit
  | bfGet tw =>
    rw [exec_bfGet] at h
    refine (checked_raise_or_effect (fieldCheck_ne_badRegister (some tw) s) h).imp_right fun ⟨hc, ht⟩ => .inr ?_
    obtain ⟨-, -, -, hfit⟩ := (fieldCheck_none_iff (some tw) s).mp hc
    exact ht ▸ readField_dataEffect _ hfit

/-! ## What a command and an action can do -/

/-- What issuing a command can do: what an instruction can, the fault of an illegal word among it, or nothing. -/
theorem cmdIssue_next_cases {c : CmdWord} {s t : State} (h : cmdIssue c s = .next t) :
    (∃ cause ≠ Cause.badRegister, ∃ w : CmdWord, t = s.raise cause (w.setWidth 64)) ∨
    (decode c = .ok .crcBuild ∧ t = s.withTable s.crcOperand) ∨ DataEffect s t := by
  rcases cmdIssue_cases c s with ⟨-, hc⟩ | ⟨-, -, hc⟩ | ⟨-, i, hd, hc⟩ <;> rw [hc] at h
  · cases h
    exact .inr (.inr (.refl s))
  · cases h
    exact .inl ⟨.illegalCommand, by decide, c, rfl⟩
  · rcases exec_next_cases h with ⟨cause, hne, ht⟩ | ⟨rfl, ht⟩ | he
    · exact .inl ⟨cause, hne, encode i, ht⟩
    · exact .inr (.inl ⟨hd, ht⟩)
    · exact .inr (.inr he)

/-- What a register read can do: return a value, a draw perhaps, or raise `BadRegister` (R170). -/
theorem regRead_cases (n : CmdWord) (s : State) :
    (∃ v d, regRead n s = { s with rdata := v, draws := d }) ∨
    regRead n s = (s.raise .badRegister (badRegisterInfo n)).withRdata 0 := by
  cases hn : Reg.ofNumber n with
  | some r =>
    obtain ⟨hst, hfi⟩ := regRead_known hn s
    exact .inl ⟨_, _, by rw [regRead_frame, hst, hfi]⟩
  | none =>
    rw [regRead_unknown hn]
    split
    · exact .inl ⟨0, s.draws, rfl⟩
    · exact .inr rfl

/-- From `s` to `t` only operands, `BUFLEN`, the buffer, its binding and the host's side have changed, and the buffer keeps its
canonical form. -/
structure HostEffect (s t : State) : Prop where
  crc : t.crc = s.crc
  status : t.status = s.status
  finfo : t.finfo = s.finfo
  bus : t.bus = s.bus
  memory : Memory.wf s.mem → Memory.wf t.mem

/-- What an action can do: something of the host's or the platform's that leaves the engine, the fault registers and the trace
alone, a register-port fault, reset, or a command with other masters' writes after it. -/
theorem act_cases {x : Action} {s t : State} (h : act x s = .next t) :
    HostEffect s t ∨
    (∃ n v, t = (s.raise .badRegister (badRegisterInfo n)).withRdata v) ∨
    (x = .reset ∧ t = resetOp s) ∨
    ∃ c during u, x = .command c during ∧ cmdIssue c s = .next u ∧
      t = { u with mem := foreignWrites during u.mem } := by
  cases x with
  | regRead n =>
    cases h
    rcases regRead_cases n s with ⟨v, d, hr⟩ | hr <;> rw [hr]
    · exact .inl ⟨rfl, rfl, rfl, rfl, id⟩
    · exact .inr (.inl ⟨n, 0, rfl⟩)
  | regWrite n src =>
    cases h
    rcases regWrite_cases n (resolveSource s src) s with ⟨-, hr⟩ | ⟨-, hr | hr | hr | hr | hr⟩ <;> rw [hr]
    case inr.inr.inr.inr.inr => exact .inr (.inl ⟨n, s.rdata, rfl⟩)
    all_goals exact .inl ⟨rfl, rfl, rfl, rfl, id⟩
  | command c during =>
    obtain ⟨-, u, hu, hp⟩ := runCommand_next h
    obtain ⟨-, -, ht⟩ := platform_next hp
    exact .inr (.inr (.inr ⟨c, during, u, rfl, hu, ht⟩))
  | reset =>
    cases h
    exact .inr (.inr (.inl ⟨rfl, rfl⟩))
  | bufRead a =>
    rw [act] at h
    split at h <;> cases h
    exact .inl ⟨rfl, rfl, rfl, rfl, id⟩
  | bufWrite a v =>
    rw [act] at h
    split at h <;> cases h
    exact .inl ⟨rfl, rfl, rfl, rfl, fun hm => Memory.wf_write hm a v⟩
  | bind image =>
    cases h
    exact .inl ⟨rfl, rfl, rfl, rfl, fun _ => Memory.wf_fill Memory.wf_nil 0 image⟩

/-- Settles O43: fault entry, a built table and an effect on `RES`, the buffer and the trace all keep these fields. -/
theorem instructionsKeepTheirOperands : Obligations.InstructionsKeepTheirOperands := by
  unfold Obligations.InstructionsKeepTheirOperands
  intro i s
  obtain ⟨t, ht⟩ := exec_next i s
  refine ⟨t, ht, ?_⟩
  rcases exec_next_cases ht with ⟨c, -, rfl⟩ | ⟨-, rfl⟩ | ⟨⟨res, mem, bus, rfl⟩, -, -⟩ <;>
    exact ⟨rfl, rfl, rfl, rfl, rfl, rfl, rfl, rfl⟩

end Sys2Proof.Machine
end

section
/-! PROOFS. The invariant (10_state.md R27, R29, R32; 20_memory.md R53), operation by operation: reset meets it, and fault entry,
a built table, an effect on the data, a command and an action of the host or its platform keep it. -/

namespace Sys2Proof.Machine

/-! ## Cause codes and fault information -/

theorem Cause.code_range (c : Cause) : 1 ≤ c.code.toNat ∧ c.code.toNat ≤ 8 := by
  cases c <;> decide

theorem Cause.code_eq_eight_iff (c : Cause) : c.code = 8 ↔ c = .badRegister := by
  cases c <;> decide

/-- A command word in `FINFO` leaves bit 32 and the bits above it 0 (R29). -/
theorem commandInfo_range (w : CmdWord) :
    (w.setWidth 64 : Word).toNat < 2 ^ 33 ∧ (w.setWidth 64 : Word).getLsbD 32 = false := by
  have hw := w.isLt
  refine ⟨?_, ?_⟩
  · rw [BitVec.toNat_setWidth]
    omega
  · rw [BitVec.getLsbD_setWidth, BitVec.getLsbD_of_ge w 32 le_rfl, Bool.and_false]

/-- The `FINFO` of a register-port fault, `2^32 + n`, has bit 32 set and no bit above it (R29). -/
theorem badRegisterInfo_range (n : CmdWord) :
    (badRegisterInfo n).toNat < 2 ^ 33 ∧ (badRegisterInfo n).getLsbD 32 = true := by
  have hn := n.isLt
  rw [BitVec.getLsbD, badRegisterInfo_toNat, Nat.testBit_two_pow_add_eq, Nat.testBit_lt_two_pow hn]
  exact ⟨by omega, rfl⟩

/-! ## What each operation keeps -/

/-- With no table built, no fault recorded and an empty trace, only the buffer's canonical form is left to show. -/
theorem Inv.of_cleared {s : State} (hmem : Memory.wf s.mem) (hst : s.status = { f := false, tv := false, cause := 0 })
    (hfi : s.finfo = 0) (hbus : s.bus = []) : Inv s where
  memory := hmem
  table := by simp [hst]
  clear := by simp [hst, hfi]
  cause := by simp [hst]
  info := by simp [hst]
  bounds := by simp [hbus]

/-- Settles O8: the buffer's list and the trace are empty, no table is built and no fault is recorded. -/
theorem resetMeetsTheInvariant : Obligations.ResetMeetsTheInvariant := by
  unfold Obligations.ResetMeetsTheInvariant
  exact fun _ => .of_cleared Memory.wf_nil rfl rfl rfl

theorem Inv.begin {s : State} (h : Inv s) (rest : List Action) : Inv (s.begin rest) :=
  { h with bounds := by simp }

/-- Fault entry keeps the invariant when bit 32 of the information tells a register-port fault from the others (R29). -/
theorem Inv.raise {s : State} (h : Inv s) {cause : Cause} {info : Word} (hlt : info.toNat < 2 ^ 33)
    (hbit : info.getLsbD 32 = true ↔ cause = .badRegister) : Inv (s.raise cause info) :=
  { h with
    clear := fun hf => Bool.noConfusion hf
    cause := fun _ => cause.code_range
    info := fun _ => ⟨hlt, hbit.trans cause.code_eq_eight_iff.symm⟩ }

theorem Inv.raise_command {s : State} (h : Inv s) {cause : Cause} (hc : cause ≠ .badRegister) (w : CmdWord) :
    Inv (s.raise cause (w.setWidth 64)) := by
  obtain ⟨hlt, hbit⟩ := commandInfo_range w
  exact h.raise hlt (by rw [hbit]; simp [hc])

theorem Inv.raise_badRegister {s : State} (h : Inv s) (n : CmdWord) :
    Inv (s.raise .badRegister (badRegisterInfo n)) := by
  obtain ⟨hlt, hbit⟩ := badRegisterInfo_range n
  exact h.raise hlt (by simp [hbit])

/-- A built table holds the entries of its polynomial (R32, R107). -/
theorem Inv.withTable {s : State} (h : Inv s) (p : BitVec s.crc.width.bits) : Inv (s.withTable p) :=
  { h with table := fun _ i => buildTable_get p i.val i.isLt }

/-- Reset drops the table and the fault (R220); it sets `BUFLEN` to 0, so it needs an empty trace. -/
theorem Inv.resetOp {s : State} (h : Inv s) (hbus : s.bus = []) : Inv (resetOp s) :=
  .of_cleared h.memory rfl rfl hbus

theorem Inv.dataEffect {s t : State} (h : Inv s) (he : DataEffect s t) : Inv t := by
  obtain ⟨⟨res, mem, bus, rfl⟩, hmem, ts, hbus, hts⟩ := he
  refine { h with memory := hmem h.memory, bounds := fun x hx => ?_ }
  rw [hbus] at hx
  exact (List.mem_append.mp hx).elim (h.bounds x) (hts x)

/-- An operation of the host or its platform may change `BUFLEN`, so it needs an empty trace. -/
theorem Inv.hostEffect {s t : State} (h : Inv s) (hbus : s.bus = []) (he : HostEffect s t) : Inv t where
  memory := he.memory h.memory
  table := by rw [he.crc, he.status]; exact h.table
  clear := by rw [he.status, he.finfo]; exact h.clear
  cause := by rw [he.status]; exact h.cause
  info := by rw [he.status, he.finfo]; exact h.info
  bounds := by simp [he.bus, hbus]

theorem Inv.cmdIssue {c : CmdWord} {s t : State} (h : Inv s) (hc : cmdIssue c s = .next t) : Inv t := by
  rcases cmdIssue_next_cases hc with ⟨cause, hne, w, rfl⟩ | ⟨-, rfl⟩ | he
  · exact h.raise_command hne w
  · exact h.withTable _
  · exact h.dataEffect he

theorem Inv.foreignWrites {s : State} (h : Inv s) (during : List ForeignAccess) :
    Inv { s with mem := foreignWrites during s.mem } :=
  { h with memory := foreignWrites_wf h.memory during }

/-- Every action, started with an empty trace, keeps the invariant. -/
theorem Inv.act {x : Action} {s t : State} (h : Inv s) (hbus : s.bus = []) (ha : act x s = .next t) : Inv t := by
  rcases act_cases ha with he | ⟨n, v, rfl⟩ | ⟨-, rfl⟩ | ⟨c, during, u, -, hu, rfl⟩
  · exact h.hostEffect hbus he
  · exact { h.raise_badRegister n with }
  · exact h.resetOp hbus
  · exact (h.cmdIssue hu).foreignWrites during

/-- Settles O9: a step does nothing, or starts an action with an empty trace, and every action keeps the invariant. -/
theorem stepKeepsTheInvariant : Obligations.StepKeepsTheInvariant := by
  unfold Obligations.StepKeepsTheInvariant
  intro s t h hs
  rcases step_cases hs with ⟨-, rfl⟩ | ⟨x, rest, -, ha⟩
  · exact h
  · exact (h.begin rest).act rfl ha

end Sys2Proof.Machine
end

section
/-! PROOFS. Who changes the CRC engine and `TV` (10_state.md R26, R31, R32): only a `CRC.BUILD` and reset. -/

namespace Sys2Proof.Machine

/-- What an action does to the CRC engine: it keeps engine and `TV`, or it is reset, which drops the table, or a `CRC.BUILD`,
which builds one. -/
theorem act_engine {x : Action} {s t : State} (h : act x s = .next t) :
    (t.crc = s.crc ∧ t.status.tv = s.status.tv) ∨
    (x = .reset ∧ t.crc.width = s.crc.width ∧ t.status.tv = false) ∨
    ((∃ c during, x = .command c during ∧ decode c = .ok .crcBuild) ∧ t.crc.width = s.crc.width ∧
      t.status.tv = true) := by
  rcases act_cases h with he | ⟨n, v, rfl⟩ | ⟨rfl, rfl⟩ | ⟨c, during, u, rfl, hu, rfl⟩
  · exact .inl ⟨he.crc, by rw [he.status]⟩
  · exact .inl ⟨rfl, rfl⟩
  · exact .inr (.inl ⟨rfl, rfl, rfl⟩)
  · rcases cmdIssue_next_cases hu with ⟨cause, -, w, rfl⟩ | ⟨hd, rfl⟩ | ⟨⟨res, mem, bus, rfl⟩, -, -⟩
    · exact .inl ⟨rfl, rfl⟩
    · exact .inr (.inr ⟨⟨c, during, rfl, hd⟩, rfl, rfl⟩)
    · exact .inl ⟨rfl, rfl⟩

/-- What a step does to the CRC engine: it keeps engine and `TV`, or it is reset, or a `CRC.BUILD`. -/
theorem step_engine {s t : State} (h : step s = .next t) :
    (t.crc = s.crc ∧ t.status.tv = s.status.tv) ∨
    ((∃ rest, s.program = .reset :: rest) ∧ t.crc.width = s.crc.width ∧ t.status.tv = false) ∨
    ((∃ c during rest, s.program = .command c during :: rest ∧ decode c = .ok .crcBuild) ∧
      t.crc.width = s.crc.width ∧ t.status.tv = true) := by
  rcases step_cases h with ⟨-, rfl⟩ | ⟨x, rest, hp, ha⟩
  · exact .inl ⟨rfl, rfl⟩
  · rcases act_engine ha with hkeep | ⟨rfl, hw, htv⟩ | ⟨⟨c, during, rfl, hd⟩, hw, htv⟩
    · exact .inl hkeep
    · exact .inr (.inl ⟨⟨rest, hp⟩, hw, htv⟩)
    · exact .inr (.inr ⟨⟨c, during, rest, hp, hd⟩, hw, htv⟩)

/-- Settles O45: of the three things a step does to the engine, only reset leaves `TV` at 0 and only a `CRC.BUILD` at 1. -/
theorem tableValidUntilReset : Obligations.TableValidUntilReset := by
  unfold Obligations.TableValidUntilReset
  intro s t h
  rcases step_engine h with ⟨-, htv⟩ | ⟨hreset, -, htv⟩ | ⟨hbuild, -, htv⟩ <;> rw [htv]
  · exact ⟨fun h1 h0 => by simp [h1] at h0, fun h0 h1 => by simp [h0] at h1⟩
  · exact ⟨fun _ _ => hreset, fun _ h1 => Bool.noConfusion h1⟩
  · exact ⟨fun _ h0 => Bool.noConfusion h0, fun _ _ => hbuild⟩

/-- Settles O46: of the three things a step does to the engine, each keeps the width, and only reset and a `CRC.BUILD` do not
keep the rest. -/
theorem onlyBuildWritesTheTable : Obligations.OnlyBuildWritesTheTable := by
  unfold Obligations.OnlyBuildWritesTheTable
  intro s t h
  rcases step_engine h with ⟨hcrc, -⟩ | ⟨hreset, hw, -⟩ | ⟨hbuild, hw, -⟩
  · exact ⟨by rw [hcrc], .inl hcrc⟩
  · exact ⟨hw, .inr (.inl hreset)⟩
  · exact ⟨hw, .inr (.inr hbuild)⟩

end Sys2Proof.Machine
end

section
/-! PROOFS. The registers of the port (10_state.md R20, R24, R33, R39): their numbers, the bits of `STATUS` and `CONFIG`, and their
values right after reset. -/

namespace Sys2Proof.Machine

/-! ## Register numbers -/

theorem toNat_number_crcTable (i : Fin 256) : (Reg.crcTable i).number.toNat = 256 + i.val := by
  rw [Reg.number, BitVec.toNat_ofNat, Nat.mod_eq_of_lt (by omega)]

theorem number_of_ofNumber {n : CmdWord} {r : Reg} (h : Reg.ofNumber n = some r) : r.number = n := by
  rw [Reg.ofNumber] at h
  iterate 9
    split at h
    · next hn =>
      cases h
      exact hn.symm
  split at h
  · cases h
    rw [← BitVec.toNat_inj, toNat_number_crcTable]
    show 256 + (n.toNat - 256) = n.toNat
    omega
  · cases h

/-- The numbers from 256 to 511 name the table's entries: the plain registers' numbers are below them. -/
theorem ofNumber_crcTable (i : Fin 256) : Reg.ofNumber (Reg.crcTable i).number = some (.crcTable i) := by
  have hn := toNat_number_crcTable i
  have hplain : ∀ k : CmdWord, k.toNat < 256 → (Reg.crcTable i).number ≠ k := by
    rintro k hk rfl
    omega
  rw [Reg.ofNumber]
  iterate 9 rw [if_neg (hplain _ (by decide))]
  rw [dif_pos (by omega)]
  simp [hn]

theorem ofNumber_number (r : Reg) : Reg.ofNumber r.number = some r := by
  cases r
  case crcTable i => exact ofNumber_crcTable i
  all_goals rfl

/-- Settles O4: naming a register and having a number are inverse to each other. -/
theorem registerNumbersNameRegisters : Obligations.RegisterNumbersNameRegisters := by
  unfold Obligations.RegisterNumbersNameRegisters
  intro n r
  exact ⟨number_of_ofNumber, fun h => h ▸ ofNumber_number r⟩

/-! ## STATUS and CONFIG -/

theorem getLsbD_flagBit (b : Bool) (k : Nat) : (flagBit b).getLsbD k = (decide (k = 0) && b) := by
  cases k <;> simp [flagBit]

/-- The bits of `STATUS` (R24). -/
theorem Status.getLsbD_word (st : Status) (k : Nat) :
    st.word.getLsbD k =
      if k = 0 then st.f else if k = 1 then st.tv
      else if 4 ≤ k ∧ k ≤ 7 then st.cause.getLsbD (k - 4) else false := by
  simp only [Status.word, BitVec.getLsbD_or, BitVec.getLsbD_shiftLeft, BitVec.getLsbD_setWidth, getLsbD_flagBit]
  by_cases hk : k < 8
  · interval_cases k <;> simp
  · rw [BitVec.getLsbD_of_ge st.cause (k - 4) (by omega), if_neg (by omega), if_neg (by omega), if_neg (by omega)]
    simp [show k ≠ 0 by omega, show k - 1 ≠ 0 by omega]

/-- Settles O48: the bits of `STATUS`, of which `FAULT` is bit 0, and `CONFIG` evaluated for each width. -/
theorem statusAndConfigRead : Obligations.StatusAndConfigRead := by
  unfold Obligations.StatusAndConfigRead
  intro s
  refine ⟨s.status.getLsbD_word, ?_, by decide, by decide, by decide, by decide⟩
  rw [Status.getLsbD_word, if_pos rfl, State.faultOut]

/-- Settles O6: `resetFor` writes the values out. -/
theorem resetValues : Obligations.ResetValues := by
  unfold Obligations.ResetValues
  exact fun w => ⟨rfl, rfl, rfl, rfl, rfl, rfl, rfl, rfl, rfl, rfl, rfl⟩

end Sys2Proof.Machine
end

section
/-! PROOFS. What `BF.GET` depends on (10_state.md R36; 41_bitfield.md R150): the operands, `BUFLEN` and the field's bits. -/

namespace Sys2Proof.Machine

theorem readField_status (off len : Nat) (s : State) : (readField off len s).2.status = s.status := by
  rw [readField_state]

/-- Two reads of a field whose bits agree return the same value, whatever else the buffers hold. -/
theorem readField_value_congr {off len : Nat} {s s' : State} (h1 : len ≤ 64) (h2 : off + len ≤ 8 * s.bytes)
    (h2' : off + len ≤ 8 * s'.bytes) (hbits : ∀ k, off ≤ k → k < off + len → s.mem.bit k = s'.mem.bit k) :
    (readField off len s).1 = (readField off len s').1 := by
  refine BitVec.eq_of_getLsbD_eq fun j _ => ?_
  rw [readField_bit s h1 h2, readField_bit s' h1 h2']
  by_cases hj : j < len
  · rw [hbits (off + j) (by omega) (by omega)]
  · simp [hj]

/-- Settles O30: the checks read the operands and `BUFLEN` only, and where they pass, `RES` is the field's bits. -/
theorem getDependsOnTheFieldOnly : Obligations.GetDependsOnTheFieldOnly := by
  unfold Obligations.GetDependsOnTheFieldOnly
  intro s s' t t' tw h1 h2 hb hf hf' hbits ht ht'
  have hoff : s'.off = s.off := by rw [State.off, State.off, h1]
  have hlen : s'.len = s.len := by rw [State.len, State.len, h2]
  have hbytes : s'.bytes = s.bytes := by rw [State.bytes, State.bytes, hb]
  rw [exec_bfGet] at ht ht'
  rw [← fieldCheck_congr (some tw) h1 h2 hb, hoff, hlen] at ht'
  cases hc : fieldCheck (some tw) s with
  | some c =>
    rw [hc, checked_some] at ht ht'
    cases ht
    cases ht'
    exact ⟨rfl, fun h => Bool.noConfusion h⟩
  | none =>
    rw [hc, checked_none] at ht ht'
    cases ht
    cases ht'
    obtain ⟨-, h64, -, hfit⟩ := (fieldCheck_none_iff (some tw) s).mp hc
    refine ⟨?_, fun _ => readField_value_congr h64 hfit (hbytes ▸ hfit) hbits⟩
    rw [State.withRes_status, State.withRes_status, readField_status, readField_status, hf, hf']

end Sys2Proof.Machine
end

section
/-! PROOFS. The buffer's accesses (20_memory.md R53, R55, R60): every transfer of an instruction ends at `BUFLEN` at the latest,
a transfer is little-endian, and the order of its byte accesses does not matter. -/

namespace Sys2Proof.Machine

/-! ## Accesses below BUFLEN -/

/-- Settles O35: fault entry and a built table leave the trace alone, and any other effect adds transfers below `BUFLEN` only. -/
theorem accessesStayInTheBuffer : Obligations.AccessesStayInTheBuffer := by
  unfold Obligations.AccessesStayInTheBuffer
  intro i s
  obtain ⟨t, ht⟩ := exec_next i s
  have htrace : TracesWithin s t := by
    rcases exec_next_cases ht with ⟨c, -, rfl⟩ | ⟨-, rfl⟩ | he
    · exact .of_bus_eq rfl
    · exact .of_bus_eq rfl
    · exact he.trace
  obtain ⟨ts, hbus, hts⟩ := htrace
  exact ⟨t, ts, ht, hbus, hts⟩

/-! ## The value of a read -/

theorem Memory.toNat_load_lt (m : Memory) (a : Nat) {n : Nat} (hn : n ≤ 8) : (m.load a n).toNat < 2 ^ (8 * n) := by
  refine Nat.lt_pow_two_of_testBit _ fun j hj => ?_
  rw [← BitVec.getLsbD, Memory.getLsbD_load m a n j hn, decide_eq_false (by omega), Bool.false_and]

/-- A read is its first byte plus 2^8 times the read of the bytes after it: they share no bit, and none is shifted out. -/
theorem Memory.toNat_load_succ (m : Memory) (a : Nat) {n : Nat} (hn : n + 1 ≤ 8) :
    (m.load a (n + 1)).toNat = (m.read a).toNat + (m.load (a + 1) n).toNat * 2 ^ 8 := by
  have hbyte : (m.read a).toNat < 2 ^ 8 := (m.read a).isLt
  have hrest : (m.load (a + 1) n).toNat * 2 ^ 8 < 2 ^ 64 :=
    calc (m.load (a + 1) n).toNat * 2 ^ 8
      _ < 2 ^ (8 * n) * 2 ^ 8 := Nat.mul_lt_mul_of_pos_right (m.toNat_load_lt (a + 1) (by omega)) (by decide)
      _ = 2 ^ (8 * n + 8) := (pow_add ..).symm
      _ ≤ 2 ^ 64 := Nat.pow_le_pow_right (by decide) (by omega)
  rw [Memory.load, BitVec.toNat_or, BitVec.toNat_setWidth, BitVec.toNat_shiftLeft, Nat.shiftLeft_eq,
    Nat.mod_eq_of_lt hrest, Nat.mod_eq_of_lt (by omega), Nat.or_comm, ← Nat.shiftLeft_eq,
    ← Nat.shiftLeft_add_eq_or_of_lt hbyte, Nat.add_comm]

/-- The value of a read is the sum of its bytes times powers of 256 (R55). -/
theorem Memory.toNat_load (m : Memory) (a : Nat) {n : Nat} (hn : n ≤ 8) :
    (m.load a n).toNat = ((List.range n).map fun k => (m.read (a + k)).toNat * 2 ^ (8 * k)).sum := by
  induction n generalizing a with
  | zero => rfl
  | succ n ih =>
    have hshift : ∀ k, (m.read (a + (k + 1))).toNat * 2 ^ (8 * (k + 1)) =
        (m.read (a + 1 + k)).toNat * 2 ^ (8 * k) * 2 ^ 8 := fun k => by
      rw [Nat.mul_assoc, ← pow_add, Nat.add_comm k 1, Nat.add_assoc, Nat.mul_add, Nat.add_comm (8 * 1)]
    rw [Memory.toNat_load_succ m a hn, ih (a + 1) (by omega), List.range_succ_eq_map, List.map_cons, List.map_map,
      List.sum_cons, ← List.sum_map_mul_right]
    simp [Function.comp_def, hshift]

/-! ## The bytes a write stores -/

/-- Settles O36: a read by induction on its length, a write by what a store leaves at every index. -/
theorem transfersAreLittleEndian : Obligations.TransfersAreLittleEndian := by
  unfold Obligations.TransfersAreLittleEndian
  intro m a n v hn
  refine ⟨m.toNat_load a hn, fun k hk => ?_, fun x hx => ?_⟩
  · rw [Memory.read_store, if_pos (by omega), Nat.add_sub_cancel_left]
    exact BitVec.eq_of_toNat_eq (by simp)
  · rw [Memory.read_store, if_neg (by omega)]

/-- What byte stores in any order leave at every index (R60): the byte of `v` that belongs there, where one of them is done. -/
theorem Memory.read_storeInOrder (m : Memory) (a : Nat) (v : Word) (order : List Nat) (x : Nat) :
    (m.storeInOrder a v order).read x =
      if a ≤ x ∧ x - a ∈ order then (v >>> (8 * (x - a))).setWidth 8 else m.read x := by
  induction order generalizing m with
  | nil => simp [Memory.storeInOrder]
  | cons k order ih =>
    rw [Memory.storeInOrder, List.foldl_cons, ← Memory.storeInOrder, ih, Memory.read_write]
    by_cases hk : a + k = x
    · subst hk
      simp
    · have hne : a ≤ x → x - a ≠ k := by omega
      by_cases hax : a ≤ x
      · simp [hk, hax, hne hax]
      · simp [hk, hax]

/-- Settles O37: every order leaves the same byte at every index, and buffers in canonical form that read alike are equal. -/
theorem byteOrderWithinATransferIsFree : Obligations.ByteOrderWithinATransferIsFree := by
  unfold Obligations.ByteOrderWithinATransferIsFree
  intro m a n v order hm _ hperm
  refine Memory.eq_of_read_eq (Memory.wf_storeInOrder hm a v order) (Memory.wf_store hm a n v) fun x => ?_
  have hmem : (a ≤ x ∧ x - a ∈ order) ↔ (a ≤ x ∧ x < a + n) := by
    rw [hperm.mem_iff, List.mem_range]
    omega
  simp only [Memory.read_storeInOrder, Memory.read_store, hmem]

end Sys2Proof.Machine
end

section
/-! PROOFS. Other masters' accesses during a command (20_memory.md R66, R67; 70_reset_and_hazards.md R226): when the platform
lets a command pass, and that reads beside a reading instruction change nothing. -/

namespace Sys2Proof.Machine

/-! ## Races -/

theorem conflicts_iff (x : ForeignAccess) (t : Transfer) :
    conflicts x t = true ↔ (t.addr ≤ x.addr ∧ x.addr < t.addr + t.len) ∧ (x.kind = .write ∨ t.kind = .write) := by
  simp [conflicts, Transfer.covers]

theorem races_iff (bus : List Transfer) (during : List ForeignAccess) :
    races bus during = true ↔ ∃ y ∈ during, ∃ x ∈ bus, conflicts y x = true := by
  simp [races]

/-- Where other masters' accesses are bound and race with nothing, the platform lets the command pass. -/
theorem platform_of_harmless {during : List ForeignAccess} {s : State} (hbound : ∀ y ∈ during, y.addr < s.bound)
    (hrace : races s.bus during = false) :
    platform during s = .next { s with mem := foreignWrites during s.mem } := by
  have hall : during.all (fun y => decide (y.addr < s.bound)) = true := by simpa using hbound
  rw [platform, if_neg (not_not_intro hall), hrace, if_neg Bool.false_ne_true]

/-- The platform lets a command pass exactly when other masters' accesses are bound and race with nothing (R67, R226). -/
theorem platform_next_iff (during : List ForeignAccess) (s : State) :
    (∃ u, platform during s = .next u) ↔ (∀ y ∈ during, y.addr < s.bound) ∧ ¬ races s.bus during = true := by
  constructor
  · rintro ⟨u, hu⟩
    obtain ⟨hbound, hrace, -⟩ := platform_next hu
    exact ⟨hbound, by simp [hrace]⟩
  · rintro ⟨hbound, hrace⟩
    exact ⟨_, platform_of_harmless hbound (Bool.eq_false_iff.mpr hrace)⟩

/-! ## Steps that issue a command -/

theorem step_command {s : State} {c : CmdWord} {during : List ForeignAccess} {rest : List Action}
    (h : s.program = .command c during :: rest) : step s = runCommand c during (s.begin rest) :=
  step_action h

/-- Issuing a command, ignored, illegal or run, answers a next state. -/
theorem cmdIssue_next (c : CmdWord) (s : State) : ∃ t, cmdIssue c s = .next t := by
  rcases cmdIssue_cases c s with ⟨-, hc⟩ | ⟨-, -, hc⟩ | ⟨-, i, -, hc⟩
  · exact ⟨s, hc⟩
  · exact ⟨_, hc⟩
  · exact hc ▸ exec_next i s

theorem cmdIssue_keeps_bound {c : CmdWord} {s t : State} (h : cmdIssue c s = .next t) : t.bound = s.bound := by
  rcases cmdIssue_next_cases h with ⟨cause, -, w, rfl⟩ | ⟨-, rfl⟩ | ⟨⟨res, mem, bus, rfl⟩, -, -⟩ <;> rfl

/-- A command passes exactly when it is ignored or its buffer is bound, and the platform passes what its issue answers. -/
theorem runCommand_next_iff {c : CmdWord} {during : List ForeignAccess} {s t : State} (h : cmdIssue c s = .next t) :
    (∃ u, runCommand c during s = .next u) ↔
      (s.status.f = true ∨ s.buflen.toNat ≤ s.bound) ∧ ∃ u, platform during t = .next u := by
  constructor
  · rintro ⟨u, hu⟩
    have hb := (runCommand_next hu).1
    exact ⟨hb, u, runCommand_bound hb h ▸ hu⟩
  · rintro ⟨hb, u, hu⟩
    exact ⟨u, (runCommand_bound hb h).trans hu⟩

/-- Settles O38: the step is the command's issue judged by the platform, and runs nothing while the buffer is not bound. -/
theorem racesAndUnboundBytesStop : Obligations.RacesAndUnboundBytesStop := by
  unfold Obligations.RacesAndUnboundBytesStop
  intro s t c during rest hp ht
  change cmdIssue c (s.begin rest) = .next t at ht
  have hbound : t.bound = (s.begin rest).bound := cmdIssue_keeps_bound ht
  rw [step_command hp]
  refine ⟨?_, runCommand_unbound (s := s.begin rest)⟩
  rw [runCommand_next_iff ht, platform_next_iff, races_iff, hbound]
  simp only [conflicts_iff, State.begin_status, State.begin_buflen, State.begin_bound]

/-! ## Instructions that only read -/

/-- Every transfer of a trace is a read. -/
def ReadsOnly (bus : List Transfer) : Prop := ∀ x ∈ bus, x.kind = .read

theorem ReadsOnly.memRead {s : State} (h : ReadsOnly s.bus) (a n : Nat) : ReadsOnly (s.memRead a n).2.bus := by
  intro x hx
  rw [State.memRead_bus, transferOf] at hx
  split at hx
  · exact h x (by simpa using hx)
  · rcases List.mem_append.mp hx with hx | hx
    · exact h x hx
    · rw [List.mem_singleton.mp hx]

theorem ReadsOnly.withRes {s : State} (h : ReadsOnly s.bus) (v : Word) : ReadsOnly (s.withRes v).bus := h

theorem ReadsOnly.get56 {s : State} (h : ReadsOnly s.bus) (off len : Nat) : ReadsOnly (get56 off len s).2.bus :=
  h.memRead _ _

/-- A field read has read transfers only, whatever its path (R62). -/
theorem ReadsOnly.readField {s : State} (h : ReadsOnly s.bus) (off len : Nat) :
    ReadsOnly (readField off len s).2.bus := by
  rw [Machine.readField, getSlow]
  split
  · exact h.memRead _ _
  · split
    · exact h.get56 _ _
    · exact (h.get56 off 56).get56 (off + 56) (len - 56)

/-- `CRC.CMPB` has read transfers only (R62). -/
theorem ReadsOnly.cmpbEffect {s : State} (h : ReadsOnly s.bus) : ReadsOnly (cmpbEffect s).bus := by
  intro x hx
  rw [Machine.cmpbEffect, crcRange_eq] at hx
  rcases List.mem_append.mp hx with hx | hx
  · exact h x hx
  · obtain ⟨k, -, rfl⟩ := List.mem_map.mp hx
    rfl

theorem ReadsOnly.checked {check : Option Cause} {i : Instr} {s t u : State} (hs : ReadsOnly s.bus)
    (ht : ReadsOnly t.bus) (h : checked check i s t = .next u) : ReadsOnly u.bus := by
  rcases checked_cases h with ⟨-, rfl⟩ | ⟨c, -, rfl⟩
  · exact ht
  · exact hs

/-- `CRC.CMPB` and `BF.GET` write no byte of the buffer (R62, R112, R154). -/
theorem ReadsOnly.exec {i : Instr} (hi : i = .crcCmpb ∨ ∃ tw, i = .bfGet tw) {s t : State} (hs : ReadsOnly s.bus)
    (h : exec i s = .next t) : ReadsOnly t.bus := by
  rcases hi with rfl | ⟨tw, rfl⟩
  · rw [exec_crcCmpb] at h
    exact hs.checked hs.cmpbEffect h
  · rw [exec_bfGet] at h
    exact hs.checked ((hs.readField s.off s.len).withRes _) h

/-- The command of a reading instruction, ignored or run, adds read transfers only. -/
theorem ReadsOnly.cmdIssue {c : CmdWord} {i : Instr} (hd : decode c = .ok i)
    (hi : i = .crcCmpb ∨ ∃ tw, i = .bfGet tw) {s t : State} (hs : ReadsOnly s.bus) (h : cmdIssue c s = .next t) :
    ReadsOnly t.bus := by
  rcases cmdIssue_cases c s with ⟨-, hc⟩ | ⟨-, ⟨e, he⟩, -⟩ | ⟨-, j, hj, hc⟩
  · rw [hc] at h
    cases h
    exact hs
  · rw [hd] at he
    cases he
  · rw [hd] at hj
    cases hj
    exact hs.exec hi (hc ▸ h)

/-! ## Other masters' reads -/

/-- Reads do not race with reads (R66). -/
theorem ReadsOnly.races_reads {bus : List Transfer} (hbus : ReadsOnly bus) {during : List ForeignAccess}
    (hreads : ∀ y ∈ during, y.kind = .read) : races bus during = false := by
  rw [Bool.eq_false_iff, ne_eq, races_iff]
  rintro ⟨y, hy, x, hx, hconf⟩
  obtain ⟨-, hwrite⟩ := (conflicts_iff y x).mp hconf
  simp [hreads y hy, hbus x hx] at hwrite

theorem foreignWrites_reads (m : Memory) {during : List ForeignAccess} (hreads : ∀ y ∈ during, y.kind = .read) :
    foreignWrites during m = m := by
  induction during with
  | nil => rfl
  | cons y during ih =>
    have happly : applyAccess y m = m := by rw [applyAccess, hreads y List.mem_cons_self]
    rw [foreignWrites, List.foldl_cons, happly]
    exact ih fun z hz => hreads z (List.mem_cons_of_mem y hz)

/-- The platform makes nothing of other masters' bound reads during a command that only reads. -/
theorem platform_reads {during : List ForeignAccess} {s : State} (hbus : ReadsOnly s.bus)
    (hreads : ∀ y ∈ during, y.kind = .read) (hbound : ∀ y ∈ during, y.addr < s.bound) :
    platform during s = .next s := by
  rw [platform_of_harmless hbound (hbus.races_reads hreads), foreignWrites_reads s.mem hreads]

/-- Settles O39: the two instructions only read, reads race with no read, and they leave the buffer as it is; with the buffer
not bound, the step stops whatever the other masters do. -/
theorem concurrentReadsAreHarmless : Obligations.ConcurrentReadsAreHarmless := by
  unfold Obligations.ConcurrentReadsAreHarmless
  intro s c i during rest hd hi hduring
  rw [step_command rfl, step_command rfl]
  change runCommand c during (s.begin rest) = runCommand c [] (s.begin rest)
  by_cases hb : (s.begin rest).status.f = true ∨ (s.begin rest).buflen.toNat ≤ (s.begin rest).bound
  · obtain ⟨t, ht⟩ := cmdIssue_next c (s.begin rest)
    have hbus : ReadsOnly t.bus := ReadsOnly.cmdIssue hd hi (fun x hx => absurd hx List.not_mem_nil) ht
    have hbound : t.bound = (s.begin rest).bound := cmdIssue_keeps_bound ht
    rw [runCommand_bound hb ht, runCommand_bound hb ht, platform_alone,
      platform_reads hbus (fun y hy => (hduring y hy).1) fun y hy => hbound ▸ (hduring y hy).2]
  · rw [not_or, Bool.not_eq_true, Nat.not_le] at hb
    obtain ⟨hf, hlt⟩ := hb
    rw [runCommand_unbound hf hlt, runCommand_unbound hf hlt]

end Sys2Proof.Machine
end


section
/-! PROOFS. The command words (30_encoding.md R81, R84 to R87): what it means that a row of the opcode map selects a word, what a
decoded word and an illegal word are, that decoding and encoding are inverse to each other, and the assembler's command lines. -/

namespace Sys2Proof.Machine

/-! ## Rows and the words they select -/

theorem Row.selects_iff (r : Row) (c : CmdWord) : r.selects c = true ↔ c &&& r.mask = r.pattern := by
  rw [Row.selects, beq_iff_eq]

/-- A row that fixes every bit selects its pattern alone. -/
theorem Row.pattern_of_selects {r : Row} {c : CmdWord} (hmask : r.mask = BitVec.allOnes 32)
    (h : c &&& r.mask = r.pattern) : r.pattern = c := by
  rw [← h, hmask, BitVec.and_allOnes]

/-- A word that a row selects is the row's pattern with the bits that the row leaves free. -/
theorem Row.pattern_or_free_bits {r : Row} {c : CmdWord} (h : c &&& r.mask = r.pattern) :
    r.pattern ||| (c &&& ~~~r.mask) = c := by
  rw [← h, ← BitVec.and_or_distrib_left, BitVec.or_not_self, BitVec.and_allOnes]

/-- Where a row fixes every bit of a field, a word it selects has the row's value in that field. -/
theorem Row.extractLsb'_of_selects {r : Row} {c : CmdWord} {start len : Nat} (h : c &&& r.mask = r.pattern)
    (hmask : r.mask.extractLsb' start len = BitVec.allOnes len) :
    c.extractLsb' start len = r.pattern.extractLsb' start len := by
  rw [← h, BitVec.extractLsb'_and, hmask, BitVec.and_allOnes]

theorem rowOf_mem (i : Instr) : rowOf i ∈ opcodeMap := by
  cases i <;> simp [rowOf, opcodeMap]

theorem rowOf_selects_encode (i : Instr) : encode i &&& (rowOf i).mask = (rowOf i).pattern := by
  rw [← Row.selects_iff]
  cases i with
  | crcBuild => exact Laws.MatchesRow.crcBuild
  | crcCmpb => exact Laws.MatchesRow.crcCmpb
  | crcCmpi imm8 => exact Laws.MatchesRow.crcCmpi imm8
  | bfSet => exact Laws.MatchesRow.bfSet
  | bfGet tw => exact Laws.MatchesRow.bfGet tw

/-! ## Operand fields -/

theorem ResultWidth.code_ofCode (t : BitVec 2) : (ResultWidth.ofCode t).code = t := by
  revert t
  decide

theorem imm8Field_encode (imm8 : Byte) : imm8Field (encode (.crcCmpi imm8)) = imm8 := by
  refine BitVec.eq_of_getLsbD_eq (fun k hk => ?_)
  interval_cases k <;> simp [imm8Field, encode]

/-- The bits that row `CRC.CMPI` leaves free are `imm8` in its place (R81, R84). -/
theorem imm8Field_shiftLeft (c : CmdWord) : (imm8Field c).setWidth 32 <<< 16 = c &&& ~~~rowCrcCmpi.mask := by
  refine BitVec.eq_of_getLsbD_eq (fun k hk => ?_)
  interval_cases k <;> simp [imm8Field, rowCrcCmpi]

/-- The bits that row `BF.GET` leaves free are `tw` in its place (R81, R84). -/
theorem twField_shiftLeft (c : CmdWord) : (twField c).setWidth 32 <<< 8 = c &&& ~~~rowBfGet.mask := by
  refine BitVec.eq_of_getLsbD_eq (fun k hk => ?_)
  interval_cases k <;> simp [twField, rowBfGet]

/-- A word of row `CRC.CMPI` is the word of the instruction whose byte stands in `imm8`. -/
theorem encode_crcCmpi_imm8Field {c : CmdWord} (h : c &&& rowCrcCmpi.mask = rowCrcCmpi.pattern) :
    encode (.crcCmpi (imm8Field c)) = c := by
  rw [encode, imm8Field_shiftLeft]
  exact Row.pattern_or_free_bits h

/-- A word of row `BF.GET` is the word of the instruction whose result width stands in `tw`. -/
theorem encode_bfGet_twField {c : CmdWord} (h : c &&& rowBfGet.mask = rowBfGet.pattern) :
    encode (.bfGet (ResultWidth.ofCode (twField c))) = c := by
  rw [encode, ResultWidth.code_ofCode, twField_shiftLeft]
  exact Row.pattern_or_free_bits h

/-! ## Decoding -/

/-- What decoding answers (R85, R86): the instruction whose word it is, or, where no row selects the word, that it is illegal. -/
theorem decode_cases (c : CmdWord) :
    (∃ i, decode c = .ok i ∧ encode i = c) ∨
    ((∃ e, decode c = .error e) ∧ ∀ r ∈ opcodeMap, c &&& r.mask ≠ r.pattern) := by
  simp only [decode, Row.selects_iff]
  split_ifs with hbuild hcmpb hcmpi hset hget
  case pos => exact .inl ⟨_, rfl, Row.pattern_of_selects rfl hbuild⟩
  case pos => exact .inl ⟨_, rfl, Row.pattern_of_selects rfl hcmpb⟩
  case pos => exact .inl ⟨_, rfl, encode_crcCmpi_imm8Field hcmpi⟩
  case pos => exact .inl ⟨_, rfl, Row.pattern_of_selects rfl hset⟩
  case pos => exact .inl ⟨_, rfl, encode_bfGet_twField hget⟩
  case neg =>
    refine .inr ⟨⟨_, rfl⟩, ?_⟩
    simp only [opcodeMap, List.forall_mem_cons, List.not_mem_nil]
    exact ⟨hbuild, hcmpb, hcmpi, hset, hget, nofun⟩

theorem encode_of_decode {c : CmdWord} {i : Instr} (h : decode c = .ok i) : encode i = c := by
  rcases decode_cases c with ⟨j, hj, hc⟩ | ⟨⟨e, he⟩, -⟩
  · cases hj.symm.trans h
    exact hc
  · cases he.symm.trans h

/-- Decoding the word of a `CRC.CMPI` reaches its own row: the opcodes of the rows before it are others (R84). -/
theorem decode_encode_crcCmpi (imm8 : Byte) : decode (encode (.crcCmpi imm8)) = .ok (.crcCmpi imm8) := by
  have hown : encode (.crcCmpi imm8) &&& rowCrcCmpi.mask = rowCrcCmpi.pattern := rowOf_selects_encode (.crcCmpi imm8)
  have hopcode : opcodeField (encode (.crcCmpi imm8)) = 0x03 := Row.extractLsb'_of_selects hown rfl
  have hother : ∀ r : Row, r.mask = BitVec.allOnes 32 → opcodeField r.pattern ≠ 0x03 →
      encode (.crcCmpi imm8) &&& r.mask ≠ r.pattern :=
    fun r hmask hne h => hne (Row.pattern_of_selects hmask h ▸ hopcode)
  simp only [decode, Row.selects_iff]
  rw [if_neg (hother rowCrcBuild rfl (by decide)), if_neg (hother rowCrcCmpb rfl (by decide)), if_pos hown,
    imm8Field_encode]

theorem decode_encode (i : Instr) : decode (encode i) = .ok i := by
  cases i with
  | crcBuild => rfl
  | crcCmpb => rfl
  | crcCmpi imm8 => exact decode_encode_crcCmpi imm8
  | bfSet => rfl
  | bfGet tw => cases tw <;> rfl

/-- Settles O2: decoding inverts encoding, and a decoded word is its instruction's word. -/
theorem decodeInvertsEncode : Obligations.DecodeInvertsEncode := by
  unfold Obligations.DecodeInvertsEncode
  intro c i
  exact ⟨encode_of_decode, fun h => h ▸ decode_encode i⟩

/-- Issuing an instruction's word runs the instruction (R173). -/
theorem cmdIssue_encode (i : Instr) {s : State} (hf : s.status.f = false) : cmdIssue (encode i) s = exec i s := by
  rw [cmdIssue, if_neg (by simp [hf]), decode_encode]

/-! ## Illegal words -/

/-- A word is illegal exactly when no row selects it: a row selects the word of every instruction (R85). -/
theorem decode_error_iff (c : CmdWord) :
    (∃ e, decode c = .error e) ↔ ∀ r ∈ opcodeMap, c &&& r.mask ≠ r.pattern := by
  rcases decode_cases c with ⟨i, hi, rfl⟩ | ⟨he, hrows⟩
  · constructor
    · rintro ⟨e, he⟩
      cases hi.symm.trans he
    · intro hrows
      exact absurd (rowOf_selects_encode i) (hrows _ (rowOf_mem i))
  · exact ⟨fun _ => hrows, fun _ => he⟩

/-- Issuing an illegal word raises `IllegalCommand` and does nothing else (R85). -/
theorem cmdIssue_illegal {c : CmdWord} {s : State} (hf : s.status.f = false) (hd : ∃ e, decode c = .error e) :
    cmdIssue c s = .next (faultedBy s 1 c) := by
  obtain ⟨e, he⟩ := hd
  rw [cmdIssue, if_neg (by simp [hf]), he]
  rfl

/-- What the rows of the opcode map ask of the fields (R84): each fixes the opcode, to one of the five values, and both reserved
fields, to 0; `imm8` must be 0 but in the row of opcode 0x03, and `tw` but in the row of opcode 0x11. -/
theorem opcodeMap_fields : ∀ r ∈ opcodeMap,
    opcodeField r.mask = BitVec.allOnes 8 ∧ opcodeField r.pattern ∈ [0x01, 0x02, 0x03, 0x10, 0x11] ∧
    (rsv1Field r.mask = BitVec.allOnes 8 ∧ rsv1Field r.pattern = 0) ∧
    (rsv0Field r.mask = BitVec.allOnes 6 ∧ rsv0Field r.pattern = 0) ∧
    (opcodeField r.pattern ≠ 0x03 → imm8Field r.mask = BitVec.allOnes 8 ∧ imm8Field r.pattern = 0) ∧
    (opcodeField r.pattern ≠ 0x11 → twField r.mask = BitVec.allOnes 2 ∧ twField r.pattern = 0) := by
  decide

/-- A field that a row fixes to 0 is 0 in every word the row selects. -/
theorem Row.extractLsb'_zero_of_selects {r : Row} {c : CmdWord} {start len : Nat} (h : c &&& r.mask = r.pattern)
    (hfixed : r.mask.extractLsb' start len = BitVec.allOnes len ∧ r.pattern.extractLsb' start len = 0) :
    c.extractLsb' start len = 0 :=
  (Row.extractLsb'_of_selects h hfixed.1).trans hfixed.2

/-- Settles O3: the illegal words are those no row selects, issuing one is a fault entry, and each reason of R85 breaks a field
that every row fixes. -/
theorem illegalWordsRaise : Obligations.IllegalWordsRaise := by
  unfold Obligations.IllegalWordsRaise
  intro c
  refine ⟨decode_error_iff c, fun s hf hrows => cmdIssue_illegal hf ((decode_error_iff c).mpr hrows), ?_⟩
  intro hreason r hr h
  obtain ⟨hmask, hvalues, hrsv1, hrsv0, himm8, htw⟩ := opcodeMap_fields r hr
  have hop : opcodeField c = opcodeField r.pattern := Row.extractLsb'_of_selects h hmask
  rw [← hop] at hvalues himm8 htw
  rcases hreason with hbad | hbad | hbad | ⟨hbad, hother⟩ | ⟨hbad, hother⟩
  · exact absurd hvalues (by simpa using hbad)
  · exact hbad (Row.extractLsb'_zero_of_selects h hrsv1)
  · exact hbad (Row.extractLsb'_zero_of_selects h hrsv0)
  · exact hbad (Row.extractLsb'_zero_of_selects h (himm8 hother))
  · exact hbad (Row.extractLsb'_zero_of_selects h (htw hother))

/-! ## Written words and the assembler's command lines -/

/-- Settles O1: each written word is an instruction's word. -/
theorem tableWordsDecode : Obligations.TableWordsDecode := by
  unfold Obligations.TableWordsDecode
  exact ⟨decode_encode .crcBuild, decode_encode .crcCmpb, decode_encode (.crcCmpi 0x31), decode_encode (.crcCmpi 0xFF),
    decode_encode .bfSet, decode_encode (.bfGet .b), decode_encode (.bfGet .h), decode_encode (.bfGet .w),
    decode_encode (.bfGet .d)⟩

/-- A number that fits one width is the same number in any other. -/
theorem setWidth_ofNat_of_lt {w n : Nat} (h : n < 2 ^ w) (v : Nat) :
    (BitVec.ofNat w n).setWidth v = BitVec.ofNat v n := by
  apply BitVec.eq_of_toNat_eq
  rw [BitVec.toNat_setWidth, BitVec.toNat_ofNat, BitVec.toNat_ofNat, Nat.mod_eq_of_lt h]

theorem encode_crcCmpi_ofNat {d : Nat} (hd : d < 256) :
    encode (.crcCmpi (BitVec.ofNat 8 d)) = 0x00000003 ||| (BitVec.ofNat 32 d <<< 16) := by
  rw [encode, setWidth_ofNat_of_lt hd]

/-- The line of a `CRC.CMPI` whose byte fits is the command of its word (R87). -/
theorem assemble_crcCmpi {d : Nat} (hd : d < 256) :
    assemble (.crcCmpi d) = some (.command (encode (.crcCmpi (BitVec.ofNat 8 d))) []) := by
  rw [assemble, if_pos (by simpa [AsmLine.wf] using hd)]

/-- Settles O5: a line without operands is a fixed word; `crc.cmpi` and `.word` place their number in the word. -/
theorem assemblerLinesGiveTheirWords : Obligations.AssemblerLinesGiveTheirWords := by
  unfold Obligations.AssemblerLinesGiveTheirWords
  refine ⟨rfl, rfl, fun d hd => ?cmpi, rfl, rfl, rfl, rfl, rfl, fun v hv => ?word⟩
  case cmpi => rw [assemble_crcCmpi hd, encode_crcCmpi_ofNat hd]
  case word => rw [assemble, if_pos (by simpa [AsmLine.wf] using hv)]

end Sys2Proof.Machine
end

section
/-! PROOFS. The pseudo-instruction `ComputeSeq` (30_encoding.md R88; 40_crc.md R114): its port operations, what each does to the
state, and the run of all of them. -/

namespace Sys2Proof.Machine

/-! ## The port operations -/

/-- The port operations of one byte of `ComputeSeq`: `crc.cmpi d` and `mv ARG0, RES` (R88). -/
def byteActions (d : Byte) : List Action :=
  [.command (encode (.crcCmpi d)) [], .regRead Reg.res.number, .regWrite Reg.arg0.number .lastRead]

theorem assembleAll_append {ls ms : List AsmLine} {xs ys : List Action} (hl : assembleAll ls = some xs)
    (hm : assembleAll ms = some ys) : assembleAll (ls ++ ms) = some (xs ++ ys) := by
  rw [assembleAll] at hl hm ⊢
  rw [List.mapM_append, hl, hm]
  rfl

theorem assembleAll_byte {b : Nat} (hb : b < 256) :
    assembleAll (.crcCmpi b :: mvLines) = some (byteActions (BitVec.ofNat 8 b)) := by
  simp only [assembleAll, mvLines, List.mapM_cons, assemble_crcCmpi hb]
  rfl

theorem assembleAll_bytes {bytes : List Nat} (hb : ∀ b ∈ bytes, b < 256) :
    assembleAll (bytes.flatMap (fun b => .crcCmpi b :: mvLines)) =
      some ((bytes.map (BitVec.ofNat 8)).flatMap byteActions) := by
  induction bytes with
  | nil => rfl
  | cons b bytes ih =>
    rw [List.forall_mem_cons] at hb
    exact assembleAll_append (assembleAll_byte hb.1) (ih hb.2)

theorem assemble_wr {r : Reg} {v : Nat} (hv : v < 2 ^ 64) :
    assemble (.wr r v) = some (.regWrite r.number (.value (BitVec.ofNat 64 v))) := by
  rw [assemble, if_pos (by simpa [AsmLine.wf] using hv)]

theorem assembleAll_wr {r : Reg} {v : Nat} (hv : v < 2 ^ 64) :
    assembleAll [.wr r v] = some [.regWrite r.number (.value (BitVec.ofNat 64 v))] := by
  rw [assembleAll, List.mapM_cons, assemble_wr hv]
  rfl

/-! ## One port operation -/

/-- A read of `RES` answers it to the host and changes nothing else (R170). -/
theorem step_regRead_res {s : State} {rest : List Action} (hp : s.program = .regRead Reg.res.number :: rest) :
    step s = .next ((s.begin rest).withRdata s.res) :=
  step_action hp

/-- A write of `ARG0` while `F = 0` sets it and changes nothing else (R171). -/
theorem step_regWrite_arg0 {s : State} {src : WriteSource} {rest : List Action} (hf : s.status.f = false)
    (hp : s.program = .regWrite Reg.arg0.number src :: rest) :
    step s = .next { s.begin rest with arg0 := resolveSource s src } := by
  rw [step_action hp, act, regWrite, ofNumber_number, if_neg (by simp [hf])]
  rfl

/-- A state in which `CRC.CMPI` takes effect (R114) and no command stops the model (R226 (a)). -/
structure CmpiReady (s : State) : Prop where
  unfaulted : s.status.f = false
  built : s.status.tv = true
  bound : s.buflen.toNat ≤ s.bound
  /-- `ARG0[63:W] = 0` (R110) -/
  operand : s.arg0.toNat < 2 ^ s.crc.width.bits

theorem CmpiReady.check {s : State} (h : CmpiReady s) : stepCheck s = none := by
  rw [stepCheck, if_neg (by simp [h.built]), if_pos ((operandFits_iff ..).mpr h.operand)]

/-- With no other master acting, a `CRC.CMPI` that passes its checks steps to its effect. -/
theorem step_crcCmpi {s : State} (h : CmpiReady s) {d : Byte} {rest : List Action}
    (hp : s.program = .command (encode (.crcCmpi d)) [] :: rest) :
    step s = .next ((s.begin rest).withRes ((crcStep s.crc.table s.crcOperand d).setWidth 64)) := by
  have hissue : cmdIssue (encode (.crcCmpi d)) (s.begin rest) =
      .next ((s.begin rest).withRes ((crcStep s.crc.table s.crcOperand d).setWidth 64)) := by
    have hcheck : stepCheck (s.begin rest) = none := h.check
    rw [cmdIssue_encode (s := s.begin rest) _ h.unfaulted, exec_crcCmpi, hcheck, checked_none]
    rfl
  rw [step_command hp, runCommand_bound (s := s.begin rest) (.inr h.bound) hissue, platform_alone]

/-! ## One byte, and all of them -/

/-- `s` with the remainder `r` in `ARG0` and in `RES`, and as the value last read. -/
def State.withRemainder (s : State) (r : BitVec s.crc.width.bits) : State :=
  { s with arg0 := r.setWidth 64, res := r.setWidth 64, rdata := r.setWidth 64 }

theorem width_bits_le (w : Width) : w.bits ≤ 64 := by
  cases w <;> decide

/-- A zero-extended remainder is that remainder as the next operand (R22, R110). -/
theorem crcOperand_withRemainder (s : State) (r : BitVec s.crc.width.bits) : (s.withRemainder r).crcOperand = r := by
  show (r.setWidth 64).setWidth s.crc.width.bits = r
  rw [BitVec.setWidth_setWidth_of_le _ (width_bits_le s.crc.width), BitVec.setWidth_eq]

theorem crcOperand_ofNat (s : State) (init : Nat) :
    State.crcOperand { s with arg0 := BitVec.ofNat 64 init } = BitVec.ofNat s.crc.width.bits init :=
  BitVec.setWidth_ofNat_of_le (width_bits_le s.crc.width) init

theorem CmpiReady.withRemainder {s : State} (h : CmpiReady s) (rest : List Action) (r : BitVec s.crc.width.bits) :
    CmpiReady ((s.begin rest).withRemainder r) where
  unfaulted := h.unfaulted
  built := h.built
  bound := h.bound
  operand := by
    show (r.setWidth 64).toNat < 2 ^ s.crc.width.bits
    rw [BitVec.toNat_setWidth]
    exact (Nat.mod_le ..).trans_lt r.isLt

/-- The three operations of one byte take the remainder one step further (R114, R176). -/
theorem run_byteActions {s : State} (h : CmpiReady s) {d : Byte} {rest : List Action}
    (hp : s.program = byteActions d ++ rest) :
    Host.Core.run Sys2Proof.core 3 s =
      .next ((s.begin rest).withRemainder (crcStep s.crc.table s.crcOperand d)) := by
  calc Host.Core.run Sys2Proof.core 3 s
      = Host.Core.run Sys2Proof.core 2 _ := coreRun_next 2 (step_crcCmpi h hp)
    _ = Host.Core.run Sys2Proof.core 1 _ := coreRun_next 1 (step_regRead_res rfl)
    _ = Host.Core.run Sys2Proof.core 0 _ := coreRun_next 0 (step_regWrite_arg0 h.unfaulted rfl)

/-- The operations of a list of bytes that is not empty leave `CrcCompute` of the bytes (R103, R114). -/
theorem run_bytes {s : State} (h : CmpiReady s) {d : Byte} {ds : List Byte} {rest : List Action}
    (hp : s.program = (d :: ds).flatMap byteActions ++ rest) :
    Host.Core.run Sys2Proof.core ((d :: ds).flatMap byteActions).length s =
      .next ((s.begin rest).withRemainder (crcCompute s.crc.table (d :: ds) s.crcOperand)) := by
  induction ds generalizing s d with
  | nil => exact run_byteActions h hp
  | cons e ds ih =>
    rw [List.flatMap_cons, List.append_assoc] at hp
    rw [List.flatMap_cons, List.length_append]
    refine (coreRun_add _ _ (run_byteActions h hp)).trans ((ih (h.withRemainder _ _) rfl).trans ?_)
    rw [crcOperand_withRemainder]
    rfl

/-! ## The pseudo-instruction -/

/-- The operations of `ComputeSeq` for a list of bytes that is not empty: the initial remainder, the bytes, the read of `RES`. -/
def computeSeqActions (init : Nat) (ds : List Byte) : List Action :=
  .regWrite Reg.arg0.number (.value (BitVec.ofNat 64 init)) :: (ds.flatMap byteActions ++ [.regRead Reg.res.number])

theorem assembleAll_computeSeq {bytes : List Nat} {init : Option Nat} (hne : bytes ≠ [])
    (hinit : init.getD 0 < 2 ^ 64) (hb : ∀ b ∈ bytes, b < 256) :
    assembleAll (Pseudo.expand (.computeSeq bytes init)) =
      some (computeSeqActions (init.getD 0) (bytes.map (BitVec.ofNat 8))) := by
  have hlast : (if bytes.isEmpty then ([] : List AsmLine) else [.rd .res]) = [.rd .res] :=
    if_neg (by simpa using hne)
  rw [Pseudo.expand, hlast]
  exact assembleAll_append (assembleAll_append (assembleAll_wr hinit) (assembleAll_bytes hb)) rfl

/-- The state in which `ComputeSeq` begins on its bytes: the initial remainder is in `ARG0`. -/
theorem CmpiReady.of_init {s : State} {init : Nat} (hf : s.status.f = false) (htv : s.status.tv = true)
    (hbound : s.buflen.toNat ≤ s.bound) (hinit : init < 2 ^ s.crc.width.bits) (rest : List Action) :
    CmpiReady { s.begin rest with arg0 := BitVec.ofNat 64 init } where
  unfaulted := hf
  built := htv
  bound := hbound
  operand := by
    show (BitVec.ofNat 64 init).toNat < 2 ^ s.crc.width.bits
    rw [BitVec.toNat_ofNat]
    exact (Nat.mod_le ..).trans_lt hinit

/-- The run of `ComputeSeq` for a list of bytes that is not empty leaves `CrcCompute` of the bytes in `ARG0` and in `RES`, and as
the value last read (R88). -/
theorem run_computeSeq {s : State} {init : Nat} {ds : List Byte} {rest : List Action} (hne : ds ≠ [])
    (hf : s.status.f = false) (htv : s.status.tv = true) (hbound : s.buflen.toNat ≤ s.bound)
    (hinit : init < 2 ^ s.crc.width.bits) (hp : s.program = computeSeqActions init ds ++ rest) :
    Host.Core.run Sys2Proof.core (computeSeqActions init ds).length s =
      .next ((s.begin rest).withRemainder (crcCompute s.crc.table ds (BitVec.ofNat s.crc.width.bits init))) := by
  obtain ⟨d, ds, rfl⟩ := List.exists_cons_of_ne_nil hne
  rw [computeSeqActions, List.cons_append, List.append_assoc] at hp
  rw [computeSeqActions, List.length_cons, List.length_append]
  refine (coreRun_next _ (step_regWrite_arg0 hf hp)).trans ?_
  refine (coreRun_add _ _ (run_bytes (CmpiReady.of_init hf htv hbound hinit _) rfl)).trans ?_
  refine (coreRun_next 0 (step_regRead_res rfl)).trans ?_
  rw [crcOperand_ofNat]
  rfl

/-- Settles O21: for the empty list only the initial remainder is written; otherwise each byte takes the remainder a step
further and `RES` is read at the end. -/
theorem computeSeqComputes : Obligations.ComputeSeqComputes := by
  unfold Obligations.ComputeSeqComputes
  intro s bytes init rest hf htv hbound hinit hb
  have hinit64 : init.getD 0 < 2 ^ 64 :=
    hinit.trans_le (Nat.pow_le_pow_right (by decide) (width_bits_le s.crc.width))
  rcases eq_or_ne bytes [] with rfl | hne
  · exact ⟨_, _, assembleAll_wr hinit64, coreRun_next 0 (step_regWrite_arg0 hf rfl), (setWidth_ofNat_of_lt hinit 64).symm,
      fun h => absurd rfl h, fun _ => ⟨rfl, rfl, by simp⟩, rfl, rfl, rfl, rfl⟩
  · exact ⟨_, _, assembleAll_computeSeq hne hinit64 hb,
      run_computeSeq (s := { s with program := computeSeqActions _ _ ++ rest }) (by simpa using hne) hf htv hbound hinit rfl,
      rfl, fun _ => ⟨rfl, rfl⟩, fun h => absurd h hne, rfl, rfl, rfl, rfl⟩

end Sys2Proof.Machine
end

section
/-! PROOFS. The CRC instructions (40_crc.md R107, R111 to R115): which fault each check gives, in its order, what the effect of
each instruction is, and that a reading instruction can be repeated. -/

namespace Sys2Proof.Machine

/-! ## The checks, in their order -/

theorem buildCheck_of_lt {s : State} (h : s.arg0.toNat < 2 ^ s.crc.width.bits) : buildCheck s = none := by
  rw [buildCheck, if_pos ((operandFits_iff ..).mpr h)]

theorem buildCheck_of_le {s : State} (h : 2 ^ s.crc.width.bits ≤ s.arg0.toNat) :
    buildCheck s = some .operandWidth := by
  rw [buildCheck, if_neg (by rwa [operandFits_iff, Nat.not_lt])]

theorem stepCheck_of_unbuilt {s : State} (htv : s.status.tv = false) : stepCheck s = some .tableNotBuilt := by
  rw [stepCheck, if_pos htv]

/-- With a table built, `CRC.CMPI` checks what `CRC.BUILD` checks (R107, R114). -/
theorem stepCheck_of_built {s : State} (htv : s.status.tv = true) : stepCheck s = buildCheck s := by
  rw [stepCheck, if_neg (by simp [htv]), buildCheck]

theorem rangeCheck_of_stepCheck_some {s : State} {c : Cause} (h : stepCheck s = some c) : rangeCheck s = some c := by
  rw [rangeCheck, h]

theorem rangeCheck_of_stepCheck_none {s : State} (h : stepCheck s = none) :
    rangeCheck s = if s.off + s.len > s.bytes then some .bufferOverrun else none := by
  rw [rangeCheck, h]

/-- The fault of a failing check is fault entry with the cause's code and the instruction's own word (R200). -/
theorem checked_faultedBy {check : Option Cause} {c : Cause} (hc : check = some c) (i : Instr) (s t : State) :
    checked check i s t = .next (faultedBy s c.code.toNat (encode i)) := by
  rw [hc, checked_some, State.raise, faultedBy, BitVec.ofNat_toNat, BitVec.setWidth_eq]

/-! ## CRC.BUILD -/

theorem toNat_crcOperand {s : State} (h : s.arg0.toNat < 2 ^ s.crc.width.bits) :
    s.crcOperand.toNat = s.arg0.toNat := by
  rw [State.crcOperand, BitVec.toNat_setWidth, Nat.mod_eq_of_lt h]

/-- Settles O16: the operand passes the check exactly when it fits `W` bits, and the effect is the built table. -/
theorem buildSetsTableAndPolynomial : Obligations.BuildSetsTableAndPolynomial := by
  unfold Obligations.BuildSetsTableAndPolynomial
  intro s
  rw [exec_crcBuild]
  refine ⟨fun hfit => ?fits, fun hwide => ?wide⟩
  case fits =>
    refine ⟨s.crcOperand, buildTable s.crcOperand, toNat_crcOperand hfit, fun i => buildTable_get _ _ i.isLt, ?_⟩
    rw [buildCheck_of_lt hfit, checked_none, State.withTable]
  case wide => exact checked_faultedBy (buildCheck_of_le hwide) ..

/-! ## CRC.CMPI -/

/-- Settles O18: the two checks in their order, then one step of the remainder into `RES`. -/
theorem cmpiAdvancesTheRemainder : Obligations.CmpiAdvancesTheRemainder := by
  unfold Obligations.CmpiAdvancesTheRemainder
  intro s imm8
  rw [exec_crcCmpi]
  refine ⟨fun htv => ?unbuilt, fun htv hwide => ?wide, fun htv hfit => ?effect⟩
  case unbuilt => exact checked_faultedBy (stepCheck_of_unbuilt htv) ..
  case wide => exact checked_faultedBy ((stepCheck_of_built htv).trans (buildCheck_of_le hwide)) ..
  case effect => rw [stepCheck_of_built htv, buildCheck_of_lt hfit, checked_none, State.withRes, State.crcOperand]

/-! ## CRC.CMPB -/

/-- The effect of `CRC.CMPB` is `CrcCompute` of the range's bytes in `RES`, and one read transfer a byte (R111, R112). -/
theorem cmpbEffect_eq (s : State) :
    cmpbEffect s = { s with
      res := (crcCompute s.crc.table (rangeBytes s.mem s.off s.len) s.crcOperand).setWidth 64
      bus := s.bus ++ rangeFootprint s.off s.len } := by
  rw [cmpbEffect, crcRange_eq]
  rfl

/-- Settles O17: the three checks in their order, then `CrcCompute` of the range into `RES`. -/
theorem cmpbComputesTheRange : Obligations.CmpbComputesTheRange := by
  unfold Obligations.CmpbComputesTheRange
  intro s
  rw [exec_crcCmpb]
  refine ⟨fun htv => ?unbuilt, fun htv hwide => ?wide, fun htv hfit hover => ?overrun, fun htv hfit hin => ?effect⟩
  case unbuilt => exact checked_faultedBy (rangeCheck_of_stepCheck_some (stepCheck_of_unbuilt htv)) ..
  case wide =>
    have hcheck : stepCheck s = some .operandWidth := (stepCheck_of_built htv).trans (buildCheck_of_le hwide)
    exact checked_faultedBy (rangeCheck_of_stepCheck_some hcheck) ..
  case overrun =>
    have hcheck : stepCheck s = none := (stepCheck_of_built htv).trans (buildCheck_of_lt hfit)
    exact checked_faultedBy ((rangeCheck_of_stepCheck_none hcheck).trans (if_pos hover)) ..
  case effect =>
    have hcheck : stepCheck s = none := (stepCheck_of_built htv).trans (buildCheck_of_lt hfit)
    rw [rangeCheck_of_stepCheck_none hcheck, if_neg (Nat.not_lt.mpr hin), checked_none, cmpbEffect_eq]
    rfl

/-! ## Repetition -/

/-- A checked instruction that ends unfaulted has passed its check and has its effect. -/
theorem checked_unfaulted {check : Option Cause} {i : Instr} {s t u : State} (h : checked check i s t = .next u)
    (hf : u.status.f = false) : check = none ∧ u = t := by
  rcases checked_cases h with h | ⟨c, -, rfl⟩
  · exact h
  · rw [State.raise_status] at hf
    cases hf

theorem cmpbEffect_withRes (s : State) (v : Word) : cmpbEffect (s.withRes v) = cmpbEffect s := by
  rw [cmpbEffect_eq, cmpbEffect_eq]
  rfl

/-- The whole field read does not use `RES`. -/
theorem readField_withRes (off len : Nat) (s : State) (v : Word) :
    readField off len (s.withRes v) = ((readField off len s).1, (readField off len s).2.withRes v) := by
  rw [readField, readField, getSlow, getSlow]
  split
  · rfl
  · split <;> rfl

/-- Without a fault, `CRC.CMPB` and `BF.GET` change `RES` and the trace only (R112, R154). -/
theorem exec_reading_frame {i : Instr} (hi : i = .crcCmpb ∨ ∃ tw, i = .bfGet tw) {s t : State}
    (h : exec i s = .next t) (hf : t.status.f = false) : { t with bus := s.bus } = s.withRes t.res := by
  rcases hi with rfl | ⟨tw, rfl⟩
  · rw [exec_crcCmpb] at h
    obtain ⟨-, rfl⟩ := checked_unfaulted h hf
    rw [cmpbEffect_eq]
    rfl
  · rw [exec_bfGet] at h
    obtain ⟨-, rfl⟩ := checked_unfaulted h hf
    rw [readField_state]
    rfl

/-- Without a fault, `CRC.CMPB` and `BF.GET` answer the same state whatever `RES` held before (R113, R154). -/
theorem exec_reading_withRes {i : Instr} (hi : i = .crcCmpb ∨ ∃ tw, i = .bfGet tw) {s t : State}
    (h : exec i s = .next t) (hf : t.status.f = false) (v : Word) : exec i (s.withRes v) = .next t := by
  rcases hi with rfl | ⟨tw, rfl⟩
  · rw [exec_crcCmpb] at h ⊢
    obtain ⟨hc, rfl⟩ := checked_unfaulted h hf
    have hc' : rangeCheck (s.withRes v) = none := hc
    rw [hc', checked_none, cmpbEffect_withRes]
  · rw [exec_bfGet] at h ⊢
    obtain ⟨hc, rfl⟩ := checked_unfaulted h hf
    have hc' : fieldCheck (some tw) (s.withRes v) = none := hc
    rw [hc', checked_none, readField_withRes]
    rfl

/-- Settles O47: the first run has changed `RES` and the trace only, and the second does not use `RES`. -/
theorem readingInstructionsRepeat : Obligations.ReadingInstructionsRepeat := by
  unfold Obligations.ReadingInstructionsRepeat
  intro s t i hi h hf
  rw [exec_reading_frame hi h hf]
  exact exec_reading_withRes hi h hf t.res

/-! ## Streams -/

/-- Settles O15: `CrcCompute` is a left fold over the bytes (R103, R115). -/
theorem computeStreams : Obligations.ComputeStreams := by
  unfold Obligations.ComputeStreams
  intro w tab s₁ s₂ init
  rw [crcCompute, crcCompute, crcCompute, List.foldl_append]

end Sys2Proof.Machine
end

section
/-! PROOFS. The bit-field instructions (41_bitfield.md R140, R143, R144, R148, R150, R162): which fault each check gives, in its
order, the transfers of the footprint table (20_memory.md R62), and what `BF.SET` and `BF.GET` do to and read from the field. -/

namespace Sys2Proof.Machine

/-! ## The checks, in their order -/

theorem resultWidth_bits_le (tw : ResultWidth) : tw.bits ≤ 64 := by
  cases tw <;> decide

theorem tooWide_some_iff (len : Nat) (tw : ResultWidth) : tooWide len (some tw) = true ↔ tw.bits < len := by
  simp [tooWide]

theorem tooWide_some_eq_false_iff (len : Nat) (tw : ResultWidth) : tooWide len (some tw) = false ↔ len ≤ tw.bits := by
  simp [tooWide]

theorem fieldCheck_of_long (tw : Option ResultWidth) {s : State} (h : s.len > 64) :
    fieldCheck tw s = some .lengthRange := by
  rw [fieldCheck, if_pos h]

theorem fieldCheck_of_zero (tw : Option ResultWidth) {s : State} (h : s.len = 0) :
    fieldCheck tw s = some .lengthZero := by
  rw [fieldCheck, if_neg (by omega), if_pos h]

theorem fieldCheck_of_wide {tw : ResultWidth} {s : State} (h64 : s.len ≤ 64) (hwide : tw.bits < s.len) :
    fieldCheck (some tw) s = some .typeWidth := by
  rw [fieldCheck, if_neg (by omega), if_neg (by omega), if_pos ((tooWide_some_iff ..).mpr hwide)]

theorem fieldCheck_of_overrun {tw : Option ResultWidth} {s : State} (h1 : 1 ≤ s.len) (h64 : s.len ≤ 64)
    (hfits : tooWide s.len tw = false) (hover : s.off + s.len > 8 * s.bytes) :
    fieldCheck tw s = some .bufferOverrun := by
  rw [fieldCheck, if_neg (by omega), if_neg (by omega), if_neg (by simp [hfits]), if_pos hover]

/-- Settles O22: in each clause the checks before the named one pass, so its fault is entered, with the command word. -/
theorem fieldChecksInOrder : Obligations.FieldChecksInOrder := by
  unfold Obligations.FieldChecksInOrder
  intro s tw
  rw [exec_bfSet, exec_bfGet]
  refine ⟨fun hlong => ?long, fun hzero => ?zero, fun h64 hwide => ?wide, fun h1 h64 hover => ?setOverrun,
    fun h1 hfits hover => ?getOverrun⟩
  case long =>
    exact ⟨checked_faultedBy (fieldCheck_of_long _ hlong) .., checked_faultedBy (fieldCheck_of_long _ hlong) ..⟩
  case zero =>
    exact ⟨checked_faultedBy (fieldCheck_of_zero _ hzero) .., checked_faultedBy (fieldCheck_of_zero _ hzero) ..⟩
  case wide => exact checked_faultedBy (fieldCheck_of_wide h64 hwide) ..
  case setOverrun => exact checked_faultedBy (fieldCheck_of_overrun h1 h64 rfl hover) ..
  case getOverrun =>
    have hwidth : tooWide s.arg2.toNat (some tw) = false := (tooWide_some_eq_false_iff ..).mpr hfits
    exact checked_faultedBy (fieldCheck_of_overrun h1 (hfits.trans (resultWidth_bits_le tw)) hwidth hover) ..

/-! ## Legal operands -/

theorem exec_bfSet_of_legal {s : State} (h1 : 1 ≤ s.arg2.toNat) (h64 : s.arg2.toNat ≤ 64)
    (hin : s.arg1.toNat + s.arg2.toNat ≤ 8 * s.buflen.toNat) :
    exec .bfSet s = .next (writeField s.off s.len s.arg0 s) := by
  rw [exec_bfSet, (fieldCheck_none_iff none s).mpr ⟨h1, h64, rfl, hin⟩, checked_none]

theorem exec_bfGet_of_legal {tw : ResultWidth} {s : State} (h1 : 1 ≤ s.arg2.toNat) (hfits : s.arg2.toNat ≤ tw.bits)
    (hin : s.arg1.toNat + s.arg2.toNat ≤ 8 * s.buflen.toNat) :
    exec (.bfGet tw) s = .next ((readField s.off s.len s).2.withRes (readField s.off s.len s).1) := by
  rw [exec_bfGet, (fieldCheck_none_iff (some tw) s).mpr
    ⟨h1, hfits.trans (resultWidth_bits_le tw), (tooWide_some_eq_false_iff ..).mpr hfits, hin⟩, checked_none]

/-! ## The transfers of the footprint table -/

theorem transferOf_pos (kind : AccessKind) (a : Nat) {n : Nat} (h : 0 < n) :
    transferOf kind a n = [{ kind := kind, addr := a, len := n }] := by
  rw [transferOf, if_neg (by omega)]

theorem State.logged_logged (s : State) (ts us : List Transfer) : (s.logged ts).logged us = s.logged (ts ++ us) := by
  simp [State.logged]

/-- The window at a field's first byte has a byte in it, so its transfers are events (R18, R61). -/
theorem clip_pos {bytes off : Nat} (h : off < 8 * bytes) : 0 < clip bytes (off / 8) := by
  rw [clip]
  omega

theorem set56_bus (len : Nat) (v : Word) {off : Nat} {s : State} (h : off < 8 * s.bytes) :
    (set56 off len v s).bus = s.bus ++
      [readT (off / 8) (min 8 (s.bytes - off / 8)), writeT (off / 8) (min 8 (s.bytes - off / 8))] := by
  rw [set56_eq, transferOf_pos _ _ (clip_pos h), transferOf_pos _ _ (clip_pos h), List.append_assoc]
  rfl

theorem get56_logged (len : Nat) {off : Nat} {s : State} (h : off < 8 * s.bytes) :
    (get56 off len s).2 = s.logged [readT (off / 8) (min 8 (s.bytes - off / 8))] := by
  rw [get56_state, transferOf_pos _ _ (clip_pos h)]
  rfl

/-- `BF.SET` after its checks makes the transfers of the footprint table, whatever its path. -/
theorem writeField_bus {off len : Nat} (v : Word) {s : State} (h1 : 1 ≤ len) (h2 : off + len ≤ 8 * s.bytes) :
    (writeField off len v s).bus = s.bus ++ setFootprint s.bytes off len := by
  rw [writeField, setFootprint, setSlow]
  by_cases ha : off % 8 = 0 ∧ len % 8 = 0
  · rw [if_pos ((aligned_iff ..).mpr ha), if_pos ha, setFast, State.memWrite_bus, transferOf_pos _ _ (by omega)]
    rfl
  · rw [if_neg (by rwa [aligned_iff]), if_neg ha]
    by_cases h56 : len ≤ 56
    · rw [if_pos h56, if_pos h56, set56_bus _ _ (by omega)]
    · rw [if_neg h56, if_neg h56, set56_bus _ _ (by rw [set56_bytes]; omega), set56_bus _ _ (by omega),
        List.append_assoc, set56_bytes]
      rfl

/-- `BF.GET` after its checks makes the transfers of the footprint table, whatever its path. -/
theorem readField_logged {off len : Nat} {s : State} (h1 : 1 ≤ len) (h2 : off + len ≤ 8 * s.bytes) :
    (readField off len s).2 = s.logged (getFootprint s.bytes off len) := by
  rw [readField, getFootprint, getSlow]
  by_cases ha : off % 8 = 0 ∧ len % 8 = 0
  · rw [if_pos ((aligned_iff ..).mpr ha), if_pos ha, getFast, State.memRead_state, transferOf_pos _ _ (by omega)]
    rfl
  · rw [if_neg (by rwa [aligned_iff]), if_neg ha]
    by_cases h56 : len ≤ 56
    · rw [if_pos h56, if_pos h56, get56_logged _ (by omega)]
    · rw [if_neg h56, if_neg h56]
      dsimp only
      rw [get56_logged 56 (by omega), get56_logged _ (by rw [State.logged_bytes]; omega), State.logged_logged]
      rfl

/-- The byte of every bit of the field is in a write of the footprint table. -/
theorem setFootprint_covers {bytes off len k : Nat} (h64 : len ≤ 64) (h2 : off + len ≤ 8 * bytes)
    (hk : off ≤ k ∧ k < off + len) :
    ∃ x ∈ setFootprint bytes off len, x.kind = .write ∧ x.addr ≤ k / 8 ∧ k / 8 < x.addr + x.len := by
  have hwindow : ∀ o, o ≤ k → k < o + 56 → o / 8 ≤ k / 8 ∧ k / 8 < o / 8 + min 8 (bytes - o / 8) := by omega
  rw [setFootprint]
  by_cases ha : off % 8 = 0 ∧ len % 8 = 0
  · rw [if_pos ha]
    have hcopy : off / 8 ≤ k / 8 ∧ k / 8 < off / 8 + len / 8 := by omega
    exact ⟨_, List.mem_singleton_self _, rfl, hcopy⟩
  · rw [if_neg ha]
    by_cases h56 : len ≤ 56
    · rw [if_pos h56]
      exact ⟨writeT (off / 8) _, by simp, rfl, hwindow off (by omega) (by omega)⟩
    · rw [if_neg h56]
      by_cases hlow : k < off + 56
      · exact ⟨writeT (off / 8) _, by simp, rfl, hwindow off (by omega) hlow⟩
      · exact ⟨writeT ((off + 56) / 8) _, by simp, rfl, hwindow (off + 56) (by omega) (by omega)⟩

/-! ## BF.SET and BF.GET -/

/-- Settles O23: whatever the path, the field's bits are replaced and no other; a byte outside the footprint's writes holds no
bit of the field. -/
theorem setWritesTheField : Obligations.SetWritesTheField := by
  unfold Obligations.SetWritesTheField
  intro s h1 h64 hin
  have hbits := writeField_bit (off := s.off) s.arg0 s h64 hin
  refine ⟨_, exec_bfSet_of_legal h1 h64 hin, ?frame, hbits, fun a ha => ?bytes⟩
  case frame => rw [← writeField_bus s.arg0 h1 hin, ← writeField_eq]
  case bytes =>
    refine Memory.read_eq_of_bit_eq fun i hi => ?_
    have hout : ¬ (s.off ≤ 8 * a + i ∧ 8 * a + i < s.off + s.len) := by
      intro hk
      obtain ⟨x, hx, hw, hcover⟩ := setFootprint_covers h64 hin hk
      exact ha x hx hw (by omega)
    rw [hbits, if_neg hout]

/-- Settles O24: whatever the path, the value's bits are the field's, and beside `RES` only the trace changes. -/
theorem getReadsTheField : Obligations.GetReadsTheField := by
  unfold Obligations.GetReadsTheField
  intro s tw h1 hfits hin
  refine ⟨(readField s.off s.len s).1, ?_, readField_bit s (hfits.trans (resultWidth_bits_le tw)) hin⟩
  rw [exec_bfGet_of_legal h1 hfits hin, readField_logged h1 hin]
  rfl

/-- Settles O27: `BF.SET` keeps every bit outside its field, and the value of `BF.GET` is that of the bits of its own. -/
theorem disjointFieldsDoNotInterfere : Obligations.DisjointFieldsDoNotInterfere := by
  unfold Obligations.DisjointFieldsDoNotInterfere
  intro s off len tw h1 h64 hin g1 gfits gin hdisjoint
  have hkeep : ∀ k, k < s.arg1.toNat ∨ k ≥ s.arg1.toNat + s.arg2.toNat →
      (writeField s.off s.len s.arg0 s).mem.bit k = s.mem.bit k := by
    intro k hk
    rw [writeField_bit s.arg0 s h64 hin, if_neg (by omega)]
  have hbuflen : (writeField s.off s.len s.arg0 s).buflen = s.buflen := by rw [writeField_eq]
  have gin' : off.toNat + len.toNat ≤ 8 * (writeField s.off s.len s.arg0 s).bytes := by rwa [State.bytes, hbuflen]
  refine ⟨_, _, _, exec_bfSet_of_legal h1 h64 hin, hkeep, exec_bfGet_of_legal g1 gfits gin,
    exec_bfGet_of_legal g1 gfits gin', ?_⟩
  exact readField_value_congr (off := off.toNat) (len := len.toNat) (gfits.trans (resultWidth_bits_le tw)) gin gin'
    fun k hlo hhi => (hkeep k (by omega)).symm

/-- Settles O28: on both paths the field's bits are replaced and no other, and the value's bits are the field's. -/
theorem fastAndSlowPathsAgree : Obligations.FastAndSlowPathsAgree := by
  unfold Obligations.FastAndSlowPathsAgree
  intro s off len v hoff hlen _ h64 hin
  refine ⟨fun a => Memory.read_eq_of_bit_eq fun i _ => ?set, BitVec.eq_of_getLsbD_eq fun j _ => ?get⟩
  case set => rw [setFast_bit v s ⟨hoff, hlen⟩, setSlow_bit v s h64 hin]
  case get => rw [getFast_bit s h64 ⟨hoff, hlen⟩, getSlow_bit s h64 hin]

end Sys2Proof.Machine
end

section
/-! PROOFS. The host's interface (42_system.md R170 to R173, R176): what a register read and a register write do at each number, that
the next command word runs its instruction, and that the remainder in `RES` is a legal operand. -/

namespace Sys2Proof.Machine

/-! ## Numbers that name no ordinary register -/

/-- A number above `CONFIG`'s and outside the table's range names no register (R20). -/
theorem ofNumber_eq_none {n : CmdWord} (h9 : 9 ≤ n.toNat) (h : n.toNat < 256 ∨ 512 ≤ n.toNat) :
    Reg.ofNumber n = none := by
  refine Option.eq_none_iff_forall_ne_some.mpr fun r hr => ?_
  obtain rfl := number_of_ofNumber hr
  cases r
  case crcTable i => rw [toNat_number_crcTable] at h; omega
  all_goals exact absurd h9 (by decide)

theorem exists_number_crcTable {n : CmdWord} (h : 256 ≤ n.toNat ∧ n.toNat ≤ 511) :
    ∃ i, n = (Reg.crcTable i).number := by
  refine ⟨⟨n.toNat - 256, by omega⟩, BitVec.eq_of_toNat_eq ?_⟩
  rw [toNat_number_crcTable]
  show n.toNat = 256 + (n.toNat - 256)
  omega

/-! ## Register reads -/

theorem regRead_number (r : Reg) (s : State) :
    regRead r.number s = (s.regValue r).2.withRdata (s.regValue r).1 :=
  regRead_some (ofNumber_number r) s

/-- The numbers 7 and 256 to 511 read a register of the CRC engine (R20, R170). -/
theorem regRead_eq_engineRead {n : CmdWord} (h : n = 7 ∨ (256 ≤ n.toNat ∧ n.toNat ≤ 511)) (s : State) :
    ∃ x, regRead n s = (s.engineRead x).2.withRdata (s.engineRead x).1 := by
  rcases h with rfl | hn
  · exact ⟨s.crc.poly, regRead_number .crcPoly s⟩
  · obtain ⟨i, rfl⟩ := exists_number_crcTable hn
    exact ⟨s.crc.table[i], regRead_number (.crcTable i) s⟩

/-- A zero-extended value has no bit at its width or above it. -/
theorem getLsbD_setWidth_of_ge {w k : Nat} (x : BitVec w) (hk : k ≥ w) : (x.setWidth 64).getLsbD k = false := by
  rw [BitVec.getLsbD_setWidth, BitVec.getLsbD_of_ge x k hk, Bool.and_false]

theorem regRead_built {s : State} (htv : s.status.tv = true) :
    regRead 7 s = { s with rdata := s.crc.poly.setWidth 64 } ∧
    ∀ i : Fin 256, regRead (BitVec.ofNat 32 (256 + i.val)) s = { s with rdata := s.crc.table[i].setWidth 64 } := by
  refine ⟨(regRead_number .crcPoly s).trans ?_, fun i => (regRead_number (.crcTable i) s).trans ?_⟩ <;>
    rw [State.regValue, State.engineRead_built htv, State.withRdata]

theorem regRead_unbuilt {s : State} (htv : s.status.tv = false) {n : CmdWord}
    (hn : n = 7 ∨ (256 ≤ n.toNat ∧ n.toNat ≤ 511)) :
    regRead n s = { s with
      rdata := ((Config.freeValue s.draws).setWidth s.crc.width.bits).setWidth 64, draws := s.draws + 1 } := by
  obtain ⟨x, hx⟩ := regRead_eq_engineRead hn s
  rw [hx, State.engineRead_unbuilt htv, State.withRdata]

/-- Fault entry at the register port writes out as `F`, cause 8 and `FINFO` (R29, R172, R200). -/
theorem raise_badRegister (n : CmdWord) (s : State) :
    s.raise .badRegister (badRegisterInfo n) = { s with
      finfo := badRegisterInfo n, status := { f := true, tv := s.status.tv, cause := 8 } } := rfl

/-- Settles O49: a number names an ordinary register, one of the CRC engine, or none. -/
theorem regReadReturns : Obligations.RegReadReturns := by
  unfold Obligations.RegReadReturns
  intro s
  refine ⟨regRead_number .arg0 s, regRead_number .arg1 s, regRead_number .arg2 s, regRead_number .res s,
    regRead_number .status s, regRead_number .finfo s, regRead_number .buflen s, regRead_number .config s,
    regRead_built, fun htv n hn => ?unbuilt, fun n h9 hn => ?unmapped⟩
  case unbuilt => exact ⟨_, fun _ => getLsbD_setWidth_of_ge _, rfl, regRead_unbuilt htv hn⟩
  case unmapped =>
    rw [regRead_unknown (ofNumber_eq_none h9 hn)]
    refine ⟨fun hf => ?_, fun hf => ⟨badRegisterInfo n, badRegisterInfo_toNat n, ?_⟩⟩
    · rw [if_pos hf, State.withRdata]
    · rw [if_neg (by simp [hf]), raise_badRegister, State.withRdata]

/-! ## Register writes -/

/-- With `F = 0`, a write of a register is its update, or a fault where the host may not write it (R171). -/
theorem regWrite_number {s : State} (hf : s.status.f = false) (r : Reg) (v : Word) :
    regWrite r.number v s = (s.regUpdate v r).getD (s.raise .badRegister (badRegisterInfo r.number)) := by
  rw [regWrite, if_neg (by simp [hf]), ofNumber_number, Option.bind_some]
  cases s.regUpdate v r <;> rfl

/-- Every number but those of the four writable registers raises `BadRegister` (R171, R172). -/
theorem regWrite_not_writable {s : State} (hf : s.status.f = false) (v : Word) {n : CmdWord} (h0 : n ≠ 0) (h1 : n ≠ 1)
    (h2 : n ≠ 2) (h6 : n ≠ 6) : regWrite n v s = s.raise .badRegister (badRegisterInfo n) := by
  cases hn : Reg.ofNumber n with
  | none => rw [regWrite, if_neg (by simp [hf]), hn]; rfl
  | some r =>
    obtain rfl := number_of_ofNumber hn
    rw [regWrite_number hf]
    cases r
    case arg0 => exact absurd rfl h0
    case arg1 => exact absurd rfl h1
    case arg2 => exact absurd rfl h2
    case buflen => exact absurd rfl h6
    all_goals rfl

/-- Settles O50: a write is ignored while `F = 1`, sets a writable register, or raises. -/
theorem regWriteWrites : Obligations.RegWriteWrites := by
  unfold Obligations.RegWriteWrites
  intro s v
  refine ⟨fun hf n => ?faulted, fun hf => ⟨regWrite_number hf .arg0 v, regWrite_number hf .arg1 v,
    regWrite_number hf .arg2 v, regWrite_number hf .buflen v, fun n h0 h1 h2 h6 => ?raises⟩⟩
  case faulted => rw [regWrite, if_pos hf]
  case raises =>
    exact ⟨_, badRegisterInfo_toNat n, (regWrite_not_writable hf v h0 h1 h2 h6).trans (raise_badRegister n s)⟩

/-! ## Command issue -/

/-- A step whose next action is an instruction's word is what the instruction answers, judged by the platform (R173). -/
theorem step_encode {s t : State} {i : Instr} {during : List ForeignAccess} {rest : List Action}
    (hp : s.program = .command (encode i) during :: rest) (hf : s.status.f = false)
    (hb : s.buflen.toNat ≤ s.bound) (ht : exec i (s.begin rest) = .next t) : step s = platform during t := by
  rw [step_command hp]
  exact runCommand_bound (s := s.begin rest) (.inr hb) ((cmdIssue_encode (s := s.begin rest) i hf).trans ht)

/-- Settles O40: a word that decodes is its instruction's word. -/
theorem stepRunsTheDecodedInstruction : Obligations.StepRunsTheDecodedInstruction := by
  unfold Obligations.StepRunsTheDecodedInstruction
  intro s c during rest i hp hf hb hd
  obtain rfl := encode_of_decode hd
  obtain ⟨t, ht⟩ := exec_next i (s.begin rest)
  have hstep : step s = platform during t := step_encode hp hf hb ht
  refine ⟨t, ht, hstep, ?_⟩
  rintro rfl
  rw [hstep, platform_alone]

/-- The low 32 bits of a command word are the word. -/
theorem withFetchWord_toNat (s : State) (c : CmdWord) : s.withFetchWord 32 c.toNat = s.withCommand c := by
  rw [State.withFetchWord, Nat.mod_eq_of_lt c.isLt, BitVec.ofNat_toNat, BitVec.setWidth_eq]

/-- Settles O41: the placed word is the next action, and starting it restores the program. -/
theorem fetchWordRunsItsInstruction : Obligations.FetchWordRunsItsInstruction := by
  unfold Obligations.FetchWordRunsItsInstruction
  intro s i hf hb
  obtain ⟨t, ht⟩ := exec_next i { s with bus := [] }
  refine ⟨t, ht, ?_⟩
  rw [withFetchWord_toNat, step_encode (s := s.withCommand (encode i)) rfl hf hb ht, platform_alone]

/-! ## The remainder as an operand -/

/-- A zero-extended value passes the operand check of its width (R22, R110). -/
theorem toNat_setWidth_lt {w : Nat} (x : BitVec w) : (x.setWidth 64).toNat < 2 ^ w := by
  rw [BitVec.toNat_setWidth]
  exact (Nat.mod_le ..).trans_lt x.isLt

/-- Settles O19: without a fault, either instruction leaves a zero-extended remainder of `W` bits in `RES` (R22). -/
theorem remainderPassesTheOperandCheck : Obligations.RemainderPassesTheOperandCheck := by
  unfold Obligations.RemainderPassesTheOperandCheck
  intro s t imm8 _ h hf
  rcases h with h | h
  · rw [exec_crcCmpb] at h
    obtain ⟨-, rfl⟩ := checked_unfaulted h hf
    rw [cmpbEffect_eq]
    exact toNat_setWidth_lt _
  · rw [exec_crcCmpi] at h
    obtain ⟨-, rfl⟩ := checked_unfaulted h hf
    exact toNat_setWidth_lt _

end Sys2Proof.Machine
end

section
/-! PROOFS. The exceptions (60_exceptions.md R190, R196, R200 to R204): which cause is reported, that fault entry is all a
faulting operation does, and what the faulted state ignores and keeps. -/

namespace Sys2Proof.Machine

/-! ## The check of an instruction -/

/-- The check that `exec` makes before an instruction's effect (R173, R196). -/
def checkOf : Instr → State → Option Cause
  | .crcBuild => buildCheck
  | .crcCmpb => rangeCheck
  | .crcCmpi _ => stepCheck
  | .bfSet => fieldCheck none
  | .bfGet tw => fieldCheck (some tw)

/-- Every instruction is its check before an effect that leaves `F` alone. -/
theorem exec_eq_checked (i : Instr) (s : State) :
    ∃ t, exec i s = checked (checkOf i s) i s t ∧ t.status.f = s.status.f := by
  cases i with
  | crcBuild => exact ⟨_, exec_crcBuild s, rfl⟩
  | crcCmpb => exact ⟨_, exec_crcCmpb s, by rw [cmpbEffect_eq]⟩
  | crcCmpi imm8 => exact ⟨_, exec_crcCmpi imm8 s, rfl⟩
  | bfSet => exact ⟨_, exec_bfSet s, by rw [writeField_eq]⟩
  | bfGet tw => exact ⟨_, exec_bfGet tw s, by rw [State.withRes_status, readField_status]⟩

/-! ## The lowest cause -/

/-- Of the fault conditions that hold for a decoded command, the one with the lowest code is `c` (R196). -/
def IsLowestCause (i : Instr) (s : State) (c : Cause) : Prop :=
  faultCondition i s c ∧ ∀ other, faultCondition i s other → c.code.toNat ≤ other.code.toNat

theorem IsLowestCause.not_lower {i : Instr} {s : State} {c : Cause} (h : IsLowestCause i s c) (other : Cause)
    (hlt : other.code.toNat < c.code.toNat) : ¬ faultCondition i s other :=
  fun ho => (h.2 other ho).not_gt hlt

theorem stepCheck_of_wide {s : State} (htv : ¬ s.status.tv = false) (hwide : 2 ^ s.crc.width.bits ≤ s.arg0.toNat) :
    stepCheck s = some .operandWidth :=
  (stepCheck_of_built (Bool.eq_true_of_not_eq_false htv)).trans (buildCheck_of_le hwide)

theorem stepCheck_of_fits {s : State} (htv : ¬ s.status.tv = false) (hfit : ¬ 2 ^ s.crc.width.bits ≤ s.arg0.toNat) :
    stepCheck s = none :=
  (stepCheck_of_built (Bool.eq_true_of_not_eq_false htv)).trans (buildCheck_of_lt (Nat.not_le.mp hfit))

/-- The checks test the causes in the order of their codes, so the lowest is what they report (R196). -/
theorem checkOf_of_isLowestCause {i : Instr} {s : State} {c : Cause} (h : IsLowestCause i s c) :
    checkOf i s = some c := by
  have hc : faultCondition i s c := h.1
  cases i with
  | crcBuild =>
    cases c
    case operandWidth => exact buildCheck_of_le hc
    all_goals exact hc.elim
  | crcCmpb =>
    cases c
    case tableNotBuilt => exact rangeCheck_of_stepCheck_some (stepCheck_of_unbuilt hc)
    case operandWidth =>
      have htv := h.not_lower .tableNotBuilt (by decide)
      exact rangeCheck_of_stepCheck_some (stepCheck_of_wide htv hc)
    case bufferOverrun =>
      have htv := h.not_lower .tableNotBuilt (by decide)
      have hfit := h.not_lower .operandWidth (by decide)
      exact (rangeCheck_of_stepCheck_none (stepCheck_of_fits htv hfit)).trans (if_pos hc)
    all_goals exact hc.elim
  | crcCmpi imm8 =>
    cases c
    case tableNotBuilt => exact stepCheck_of_unbuilt hc
    case operandWidth => exact stepCheck_of_wide (h.not_lower .tableNotBuilt (by decide)) hc
    all_goals exact hc.elim
  | bfSet =>
    cases c
    case lengthRange => exact fieldCheck_of_long none hc
    case lengthZero => exact fieldCheck_of_zero none hc
    case bufferOverrun =>
      have h64 := h.not_lower .lengthRange (by decide)
      have h0 := h.not_lower .lengthZero (by decide)
      exact fieldCheck_of_overrun (Nat.pos_of_ne_zero h0) (Nat.not_lt.mp h64) rfl hc
    all_goals exact hc.elim
  | bfGet tw =>
    cases c
    case lengthRange => exact fieldCheck_of_long _ hc
    case lengthZero => exact fieldCheck_of_zero _ hc
    case typeWidth => exact fieldCheck_of_wide (Nat.not_lt.mp (h.not_lower .lengthRange (by decide))) hc
    case bufferOverrun =>
      have h64 := h.not_lower .lengthRange (by decide)
      have h0 := h.not_lower .lengthZero (by decide)
      have hfits := h.not_lower .typeWidth (by decide)
      exact fieldCheck_of_overrun (Nat.pos_of_ne_zero h0) (Nat.not_lt.mp h64)
        ((tooWide_some_eq_false_iff ..).mpr (Nat.not_lt.mp hfits)) hc
    all_goals exact hc.elim

/-- A command for which no fault condition holds passes its check. -/
theorem checkOf_of_no_condition {i : Instr} {s : State} (h : ∀ c, ¬ faultCondition i s c) : checkOf i s = none := by
  cases i with
  | crcBuild => exact buildCheck_of_lt (Nat.not_le.mp (h .operandWidth))
  | crcCmpb =>
    have hstep : stepCheck s = none := stepCheck_of_fits (h .tableNotBuilt) (h .operandWidth)
    exact (rangeCheck_of_stepCheck_none hstep).trans (if_neg (h .bufferOverrun))
  | crcCmpi imm8 => exact stepCheck_of_fits (h .tableNotBuilt) (h .operandWidth)
  | bfSet =>
    exact (fieldCheck_none_iff none s).mpr ⟨Nat.pos_of_ne_zero (h .lengthZero), Nat.not_lt.mp (h .lengthRange), rfl,
      Nat.not_lt.mp (h .bufferOverrun)⟩
  | bfGet tw =>
    exact (fieldCheck_none_iff (some tw) s).mpr ⟨Nat.pos_of_ne_zero (h .lengthZero), Nat.not_lt.mp (h .lengthRange),
      (tooWide_some_eq_false_iff ..).mpr (Nat.not_lt.mp (h .typeWidth)), Nat.not_lt.mp (h .bufferOverrun)⟩

/-- Settles O31: a decoded command is its instruction's check, which reports the lowest cause, before its effect. -/
theorem lowestCauseIsReported : Obligations.LowestCauseIsReported := by
  unfold Obligations.LowestCauseIsReported
  intro s c hf
  refine ⟨cmdIssue_illegal hf, fun i hd => ?_⟩
  obtain rfl := encode_of_decode hd
  obtain ⟨t, hexec, ht⟩ := exec_eq_checked i s
  rw [cmdIssue_encode i hf, hexec]
  refine ⟨fun cause hc hlow => ?faults, fun hnone => ?completes⟩
  case faults => exact checked_faultedBy (checkOf_of_isLowestCause ⟨hc, hlow⟩) ..
  case completes => exact ⟨t, by rw [checkOf_of_no_condition hnone, checked_none], ht.trans hf⟩

/-! ## Fault entry is all or nothing -/

/-- A command that sets `F` has entered a fault, with its own word in `FINFO` (R200, R201). -/
theorem cmdIssue_faults {c : CmdWord} {s t : State} (h : cmdIssue c s = .next t) (hs : s.status.f = false)
    (ht : t.status.f = true) : ∃ cause, t = s.raise cause (c.setWidth 64) := by
  rcases cmdIssue_cases c s with ⟨hf, -⟩ | ⟨-, -, hc⟩ | ⟨-, i, hd, hc⟩
  · simp [hs] at hf
  · cases hc.symm.trans h
    exact ⟨.illegalCommand, rfl⟩
  · obtain rfl := encode_of_decode hd
    rcases exec_cases i s with ⟨cause, hexec⟩ | ⟨u, hexec, hu⟩ <;> cases (hc.trans hexec).symm.trans h
    · exact ⟨cause, rfl⟩
    · simp [hu, hs] at ht

/-- A register write that sets `F` has entered the port's fault (R171, R172, R201). -/
theorem regWrite_faults {n : CmdWord} {v : Word} {s : State} (hs : s.status.f = false)
    (ht : (regWrite n v s).status.f = true) : regWrite n v s = s.raise .badRegister (badRegisterInfo n) := by
  rcases regWrite_cases n v s with ⟨hf, -⟩ | ⟨-, hr | hr | hr | hr | hr⟩
  case inr.inr.inr.inr.inr => exact hr
  case inl => simp [hs] at hf
  all_goals simp [hr, hs] at ht

/-- A register read that sets `F` has entered the port's fault and returned 0 (R170, R172, R201). -/
theorem regRead_faults {n : CmdWord} {s : State} (hs : s.status.f = false) (ht : (regRead n s).status.f = true) :
    regRead n s = (s.raise .badRegister (badRegisterInfo n)).withRdata 0 := by
  rcases regRead_cases n s with ⟨v, d, hr⟩ | hr
  · simp [hr, hs] at ht
  · exact hr

/-- Settles O32: a command, a write or a read that sets `F` is a fault entry, written out. -/
theorem faultsAreAllOrNothing : Obligations.FaultsAreAllOrNothing := by
  unfold Obligations.FaultsAreAllOrNothing
  intro s t hs ht
  refine ⟨fun c h => cmdIssue_faults h hs ht, fun n v h => ?write, fun n h => ?read⟩
  case write =>
    subst h
    exact ⟨_, badRegisterInfo_toNat n, (regWrite_faults hs ht).trans (raise_badRegister n s)⟩
  case read =>
    subst h
    exact ⟨_, badRegisterInfo_toNat n, by rw [regRead_faults hs ht, raise_badRegister, State.withRdata]⟩

/-! ## The faulted state -/

section
variable {s : State} (hf : s.status.f = true)
include hf

theorem cmdIssue_faulted (c : CmdWord) : cmdIssue c s = .next s := by
  rw [cmdIssue, if_pos hf]

theorem regWrite_faulted (n : CmdWord) (v : Word) : regWrite n v s = s := by
  rw [regWrite, if_pos hf]

/-- In the faulted state a read keeps the first fault, and an unmapped one returns 0 (R170, R203). -/
theorem regRead_faulted (n : CmdWord) :
    (regRead n s).status = s.status ∧ (regRead n s).finfo = s.finfo ∧
      (Reg.ofNumber n = none → (regRead n s).rdata = 0) := by
  cases hn : Reg.ofNumber n with
  | some r =>
    obtain ⟨hst, hfi⟩ := regRead_known hn s
    exact ⟨hst, hfi, nofun⟩
  | none =>
    rw [regRead_unknown hn, if_pos hf]
    exact ⟨rfl, rfl, fun _ => rfl⟩

/-- In the faulted state only reset touches the fault registers (R203, R204). -/
theorem act_faulted {x : Action} {t : State} (h : act x s = .next t) :
    (x = .reset ∧ t = resetOp s) ∨ (t.status = s.status ∧ t.finfo = s.finfo) := by
  cases x with
  | reset =>
    cases h
    exact .inl ⟨rfl, rfl⟩
  | regRead n =>
    cases h
    obtain ⟨hst, hfi, -⟩ := regRead_faulted hf n
    exact .inr ⟨hst, hfi⟩
  | regWrite n src =>
    cases h
    rw [regWrite_faulted hf]
    exact .inr ⟨rfl, rfl⟩
  | command c during =>
    obtain ⟨-, u, hu, hp⟩ := runCommand_next h
    cases (cmdIssue_faulted hf c).symm.trans hu
    obtain ⟨-, -, rfl⟩ := platform_next hp
    exact .inr ⟨rfl, rfl⟩
  | bufRead a =>
    rw [act] at h
    split at h <;> cases h
    exact .inr ⟨rfl, rfl⟩
  | bufWrite a v =>
    rw [act] at h
    split at h <;> cases h
    exact .inr ⟨rfl, rfl⟩
  | bind image =>
    cases h
    exact .inr ⟨rfl, rfl⟩

end

/-- Settles O33: a step is its action, started with an empty trace and `F` still 1. -/
theorem faultedStateIgnoresCommandsAndWrites : Obligations.FaultedStateIgnoresCommandsAndWrites := by
  unfold Obligations.FaultedStateIgnoresCommandsAndWrites
  intro s rest hf
  have hbegin : (s.begin rest).status.f = true := hf
  refine ⟨hf, fun c hp => ?command, fun n src hp => ?write, fun n hp => ?read⟩
  case command =>
    rw [step_command hp, runCommand_bound (.inl hbegin) (cmdIssue_faulted hbegin c), platform_alone, State.begin]
  case write => rw [step_action hp, act, regWrite_faulted hbegin, State.begin]
  case read => exact ⟨_, step_action hp, rfl, regRead_faulted hbegin n⟩

/-- Settles O34: an idle step changes nothing, and of the actions only reset touches the fault registers. -/
theorem onlyResetLeavesTheFaultedState : Obligations.OnlyResetLeavesTheFaultedState := by
  unfold Obligations.OnlyResetLeavesTheFaultedState
  intro s t h hf
  rcases step_cases h with ⟨-, rfl⟩ | ⟨x, rest, hp, ha⟩
  · exact .inr ⟨rfl, rfl⟩
  · rcases act_faulted (s := s.begin rest) hf ha with ⟨rfl, rfl⟩ | hkeep
    · exact .inl ⟨⟨rest, hp⟩, rfl⟩
    · exact .inr hkeep

/-! ## Right after reset -/

/-- Settles O10: right after reset `TV` is 0 and so is the length of a field. -/
theorem commandsAfterResetFault : Obligations.CommandsAfterResetFault := by
  unfold Obligations.CommandsAfterResetFault
  intro w imm8 tw
  have hstep : stepCheck (resetFor w) = some .tableNotBuilt := stepCheck_of_unbuilt rfl
  have hfield (tw : Option ResultWidth) : fieldCheck tw (resetFor w) = some .lengthZero := fieldCheck_of_zero tw rfl
  rw [exec_crcCmpb, exec_crcCmpi, exec_bfSet, exec_bfGet]
  exact ⟨checked_faultedBy (rangeCheck_of_stepCheck_some hstep) .., checked_faultedBy hstep ..,
    checked_faultedBy (hfield none) .., checked_faultedBy (hfield (some tw)) ..⟩

end Sys2Proof.Machine
end

section
/-! PROOFS. The steps of 70_reset_and_hazards.md: the reset step (R220) and the step with no operation issued (R221). -/

namespace Sys2Proof.Machine

/-- A reset step is the reset operation with an empty trace: it makes no memory access. -/
theorem step_reset {s : State} {rest : List Action} (h : s.program = .reset :: rest) :
    step s = .next (resetOp (s.begin rest)) :=
  step_action h

/-- Reset clears `TV`, so that a read of the CRC engine gives a free value until the next `CRC.BUILD` (R39, R170). -/
theorem regRead_resetOp_rdata (s : State) {n : CmdWord} (hn : n = 7 ∨ (256 ≤ n.toNat ∧ n.toNat ≤ 511)) :
    (regRead n (resetOp s)).rdata = ((Config.freeValue s.draws).setWidth s.crc.width.bits).setWidth 64 := by
  have htv : (resetOp s).status.tv = false := rfl
  rw [regRead_unbuilt htv hn, resetOp_draws, resetOp_crc, CrcEngine.unbuilt_width]

/-- Settles O7: the reset step is `resetOp` from the start of the action, and the reads after it are of an unbuilt engine. -/
theorem resetSetsEveryRegister : Obligations.ResetSetsEveryRegister := by
  unfold Obligations.ResetSetsEveryRegister
  intro s rest hp
  refine ⟨resetOp (s.begin rest), step_reset hp, ?width, ?frame, fun n hn => ?read⟩
  case width => rw [resetOp_crc, CrcEngine.unbuilt_width, State.begin_crc]
  case frame => rw [resetOp, State.begin]
  case read => exact regRead_resetOp_rdata (s.begin rest) hn

/-- Settles O42: with no action left the step is idle. -/
theorem idleWithoutAnOperation : Obligations.IdleWithoutAnOperation := by
  unfold Obligations.IdleWithoutAnOperation
  intro s hp
  exact step_idle hp

end Sys2Proof.Machine
end

section
/-! PROOFS. What the spec infers about the CRC unit (40_crc.md sections 1 and 5): the table-driven step is bit-at-a-time division,
the facts about the table, the golden checksums, and that a range splits in two. -/

namespace Sys2Proof.Machine

/-! ## A byte at the top of a remainder -/

/-- The byte `d` in the top 8 bits, where it enters a division (R100, R105). -/
def atTop (w : Nat) (d : Byte) : BitVec w := d.setWidth w <<< (w - 8)

/-- The top byte of a remainder (R102). -/
def topByte {w : Nat} (r : BitVec w) : Byte := (r >>> (w - 8)).setWidth 8

theorem tableEntry_eq {w : Nat} (p : BitVec w) (i : Byte) : tableEntry p i = divSteps p 8 (atTop w i) := rfl

theorem bitwiseStep_eq {w : Nat} (p r : BitVec w) (d : Byte) : bitwiseStep p r d = divSteps p 8 (r ^^^ atTop w d) := rfl

theorem crcIndex_eq {w : Nat} (r : BitVec w) (d : Byte) : crcIndex r d = d ^^^ topByte r := rfl

@[simp] theorem atTop_zero (w : Nat) : atTop w 0 = 0 := by
  simp [atTop]

theorem atTop_xor (w : Nat) (a b : Byte) : atTop w (a ^^^ b) = atTop w a ^^^ atTop w b := by
  rw [atTop, BitVec.setWidth_xor, BitVec.shiftLeft_xor_distrib, atTop, atTop]

theorem atTop_one {w : Nat} (hw : 8 ≤ w) : atTop w 1 = BitVec.twoPow w (w - 8) := by
  have hone : (1 : Byte).setWidth w = 1#w := BitVec.setWidth_ofNat_of_le_of_lt hw (by decide)
  rw [atTop, hone, BitVec.twoPow]

/-- Eight shifts push the byte at the top out. -/
theorem atTop_shiftLeft {w : Nat} (hw : 8 ≤ w) (d : Byte) : atTop w d <<< 8 = 0 := by
  rw [atTop, ← BitVec.shiftLeft_add, Nat.sub_add_cancel hw, BitVec.shiftLeft_eq_zero le_rfl]
  rfl

theorem getMsbD_atTop {w : Nat} (hw : 8 ≤ w) (d : Byte) (k : Nat) : (atTop w d).getMsbD k = d.getMsbD k := by
  rw [atTop, BitVec.getMsbD_shiftLeft, BitVec.getMsbD_setWidth]
  simp [show w - 8 ≤ k + (w - 8) by omega, show k + (w - 8) + 8 - w = k by omega]

theorem getMsbD_topByte {w k : Nat} (hw : 8 ≤ w) (hk : k < 8) (r : BitVec w) : (topByte r).getMsbD k = r.getMsbD k := by
  rw [topByte, BitVec.getMsbD_setWidth, BitVec.getMsbD_ushiftRight]
  simp [show 8 - w ≤ k by omega, show ¬ k + w - 8 < w - 8 by omega, show k + w - 8 - (w - 8) = k by omega,
    show k + w - 8 < w by omega]

/-! ## The division of one byte -/

/-- A remainder without its top byte is divided by shifting only, since no iteration meets a one at the top. -/
theorem divSteps_clearTop {w : Nat} (hw : 8 ≤ w) (p r : BitVec w) :
    divSteps p 8 (r ^^^ atTop w (topByte r)) = r <<< 8 := by
  have htop : ∀ k < 8, (r ^^^ atTop w (topByte r)).getMsbD k = false := fun k hk => by
    rw [BitVec.getMsbD_xor, getMsbD_atTop hw, getMsbD_topByte hw hk, Bool.xor_self]
  rw [divSteps_shift p 8 _ htop, BitVec.shiftLeft_xor_distrib, atTop_shiftLeft hw]
  exact BitVec.xor_zero

/-- Bit-at-a-time division of a byte is the entry at `CrcStep`'s index with the shifted remainder (R102, R105). -/
theorem bitwiseStep_eq_tableEntry {w : Nat} (hw : 8 ≤ w) (p r : BitVec w) (d : Byte) :
    bitwiseStep p r d = tableEntry p (crcIndex r d) ^^^ (r <<< 8) := by
  have hsplit : r ^^^ atTop w d = atTop w (crcIndex r d) ^^^ (r ^^^ atTop w (topByte r)) := by
    rw [crcIndex_eq, atTop_xor, BitVec.xor_comm r (atTop w (topByte r)), BitVec.xor_assoc,
      ← BitVec.xor_assoc (atTop w (topByte r)), BitVec.xor_self, BitVec.zero_xor, BitVec.xor_comm]
  rw [bitwiseStep_eq, hsplit, divSteps_linear, divSteps_clearTop hw, tableEntry_eq]

/-- Settles O11: the table gives the division of the byte XORed into the top, and the rest of the remainder is shifted. -/
theorem crcStepIsBitwiseDivision : Obligations.CrcStepIsBitwiseDivision := by
  unfold Obligations.CrcStepIsBitwiseDivision
  intro w hw p r tab d htab
  have hentry : tab[(crcIndex r d).toNat]'(crcIndex r d).isLt = tableEntry p (crcIndex r d) := by
    simpa using htab ⟨(crcIndex r d).toNat, (crcIndex r d).isLt⟩
  rw [crcStep, hentry, bitwiseStep_eq_tableEntry hw]

/-! ## The table -/

theorem divSteps_succ_last {w : Nat} (p : BitVec w) (n : Nat) (r : BitVec w) :
    divSteps p (n + 1) r = divStep p (divSteps p n r) := by
  induction n generalizing r with
  | zero => rfl
  | succ n ih => rw [divSteps, ih, divSteps]

/-- The division step takes a lone one at the top to the polynomial. -/
theorem divStep_top_bit {w : Nat} (hw : 0 < w) (p : BitVec w) : divStep p (BitVec.twoPow w (w - 1)) = p := by
  have hmsb : (BitVec.twoPow w (w - 1)).msb = true := by simp [BitVec.msb_twoPow, hw]
  have hout : BitVec.twoPow w (w - 1) <<< 1 = 0#w := by
    rw [BitVec.twoPow, ← BitVec.shiftLeft_add, BitVec.shiftLeft_eq_zero (by omega)]
  rw [divStep, if_pos hmsb, hout, BitVec.zero_xor]

theorem tableEntry_zero {w : Nat} (p : BitVec w) : tableEntry p 0 = 0 := by
  rw [tableEntry_eq, atTop_zero, divSteps_zero]

/-- Seven shifts bring the one of the byte 1 to the top, and the last iteration replaces it by the polynomial (R118 (b)). -/
theorem tableEntry_one {w : Nat} (hw : 8 ≤ w) (p : BitVec w) : tableEntry p 1 = p := by
  have hshift : divSteps p 7 (BitVec.twoPow w (w - 8)) = BitVec.twoPow w (w - 1) := by
    have hclear : ∀ k < 7, (BitVec.twoPow w (w - 8)).getMsbD k = false := fun k hk => by
      rw [BitVec.getMsbD_twoPow]
      simp [show k ≠ w - (w - 8) - 1 by omega]
    rw [divSteps_shift p 7 _ hclear, BitVec.twoPow, ← BitVec.shiftLeft_add, BitVec.twoPow]
    congr 1
    omega
  rw [tableEntry_eq, atTop_one hw, divSteps_succ_last, hshift, divStep_top_bit (by omega)]

theorem tableEntry_xor {w : Nat} (p : BitVec w) (a b : Byte) :
    tableEntry p (a ^^^ b) = tableEntry p a ^^^ tableEntry p b := by
  rw [tableEntry_eq, atTop_xor, divSteps_linear, tableEntry_eq, tableEntry_eq]

theorem divSteps_zero_poly {w : Nat} (n : Nat) (r : BitVec w) : divSteps 0 n r = r <<< n := by
  induction n generalizing r with
  | zero => rw [divSteps, BitVec.shiftLeft_zero]
  | succ n ih => 
    have hstep : divStep 0 r = r <<< 1 := by
      rw [divStep]
      split
      · exact BitVec.xor_zero
      · rfl
    rw [divSteps, hstep, ih, ← BitVec.shiftLeft_add, Nat.add_comm]

theorem tableEntry_zero_poly {w : Nat} (hw : 8 ≤ w) (i : Byte) : tableEntry (0 : BitVec w) i = 0 := by
  rw [tableEntry_eq, divSteps_zero_poly, atTop_shiftLeft hw]

theorem crcStep_buildTable_zero {w : Nat} (p : BitVec w) (d : Byte) :
    crcStep (buildTable p) 0 d = (buildTable p)[d.toNat]'d.isLt := by
  have hindex : crcIndex (0 : BitVec w) d = d := by simp [crcIndex]
  have hshift : (0 : BitVec w) <<< 8 = 0 := BitVec.zero_shiftLeft 8
  simp only [crcStep, hindex, hshift]
  exact BitVec.xor_zero

/-- Settles O12: the entry is linear in the byte, and remainder 0 has the byte itself as its index. -/
theorem tableFacts : Obligations.TableFacts := by
  unfold Obligations.TableFacts
  intro w hw p
  refine ⟨tableEntry_zero p, tableEntry_one hw p, tableEntry_xor p, tableEntry_zero_poly hw, ?_,
    crcStep_buildTable_zero p⟩
  rw [crcStep_buildTable_zero, buildTable_get_byte, tableEntry_zero]

/-- Settles O13: for `W = 8` the top byte is the remainder, and the shifted remainder is 0. -/
theorem eightBitStepIsLookup : Obligations.EightBitStepIsLookup := by
  unfold Obligations.EightBitStepIsLookup
  intro tab r d
  have hshift : r <<< 8 = 0 := BitVec.shiftLeft_eq_zero le_rfl
  simp [crcStep, crcIndex, hshift]

/-! ## The golden checksums -/

/-- With a built table, `CrcCompute` divides byte by byte without it (R103, R105). -/
theorem crcCompute_buildTable {w : Nat} (hw : 8 ≤ w) (p : BitVec w) (bytes : List Byte) (init : BitVec w) :
    crcCompute (buildTable p) bytes init = bytes.foldl (bitwiseStep p) init := by
  have hstep : crcStep (buildTable p) = bitwiseStep p := by
    funext r d
    exact crcStepIsBitwiseDivision w hw p r _ d fun i => buildTable_get p i.val i.isLt
  rw [crcCompute, hstep]

/-- Settles O14: nine bytes of bit-at-a-time division for each polynomial. -/
theorem goldenChecksums : Obligations.GoldenChecksums := by
  unfold Obligations.GoldenChecksums
  rw [crcCompute_buildTable (by decide), crcCompute_buildTable (by decide), crcCompute_buildTable (by decide),
    crcCompute_buildTable (by decide)]
  decide +kernel

/-! ## Ranges -/

theorem rangeBytes_add (m : Memory) (a n k : Nat) :
    rangeBytes m a (n + k) = rangeBytes m a n ++ rangeBytes m (a + n) k := by
  simp [rangeBytes, List.range_add, Function.comp_def, Nat.add_assoc]

/-- A fitting operand is the remainder it stands for, zero-extended (R21, R110). -/
theorem arg0_eq_crcOperand {s : State} (hfit : s.arg0.toNat < 2 ^ s.crc.width.bits) :
    s.arg0 = s.crcOperand.setWidth 64 := by
  refine BitVec.eq_of_toNat_eq ?_
  rw [BitVec.toNat_setWidth, toNat_crcOperand hfit, Nat.mod_eq_of_lt s.arg0.isLt]

/-- `CRC.CMPB` with legal operands: from the remainder `r`, over `len` bytes from `base` on (R111). -/
theorem exec_crcCmpb_of_legal {s : State} {r : BitVec s.crc.width.bits} {base len : Nat} (htv : s.status.tv = true)
    (hr : s.arg0 = r.setWidth 64) (hbase : s.arg1.toNat = base) (hlen : s.arg2.toNat = len)
    (hin : base + len ≤ s.buflen.toNat) :
    exec .crcCmpb s = .next { s with
      res := (crcCompute s.crc.table (rangeBytes s.mem base len) r).setWidth 64
      bus := s.bus ++ rangeFootprint base len } := by
  subst hbase hlen
  have hoperand : s.arg0.setWidth s.crc.width.bits = r := by
    rw [hr, BitVec.setWidth_setWidth_of_le _ (width_bits_le s.crc.width), BitVec.setWidth_eq]
  obtain ⟨-, -, -, heffect⟩ := cmpbComputesTheRange s
  rw [heffect htv (hr ▸ toNat_setWidth_lt r) hin, hoperand]
  rfl

/-- Settles O20: the remainder carried from the first range is the operand of the second, and the bytes of the whole range are
those of the first and then of the second (R115). -/
theorem rangesCompose : Obligations.RangesCompose := by
  unfold Obligations.RangesCompose
  intro s len1 len2 htv hfit hin
  have hnowrap (n : Nat) (hn : n ≤ s.buflen.toNat) : (BitVec.ofNat 64 n).toNat = n :=
    Nat.mod_eq_of_lt (hn.trans_lt s.buflen.isLt)
  have hr : s.arg0 = s.crcOperand.setWidth 64 := arg0_eq_crcOperand hfit
  have hin1 : s.arg1.toNat + len1 ≤ s.buflen.toNat := by omega
  have hin2 : s.arg1.toNat + len1 + len2 ≤ s.buflen.toNat := by omega
  refine ⟨_, _, _, exec_crcCmpb_of_legal htv hr rfl (hnowrap _ (by omega)) hin,
    exec_crcCmpb_of_legal htv hr rfl (hnowrap len1 (by omega)) hin1,
    exec_crcCmpb_of_legal htv rfl (hnowrap _ hin1) (hnowrap len2 (by omega)) hin2, ?_⟩
  rw [rangeBytes_add, computeStreams]

end Sys2Proof.Machine
end

section
/-! PROOFS. What the spec infers about bit fields (41_bitfield.md sections 1, 3 and 5): a field is a slice of the buffer as one
integer, `BF.SET` then `BF.GET` gives the value back, and the source bits above the field are ignored. -/

namespace Sys2Proof.Machine

/-! ## The reference meaning, bit by bit (R134) -/

theorem getField_testBit (B off len j : Nat) :
    (getField B off len).testBit j = (decide (j < len) && B.testBit (off + j)) := by
  rw [getField, Nat.testBit_mod_two_pow, Nat.testBit_div_two_pow, Nat.add_comm]

/-- `SetField` puts the value's low bits between the bits below the field and those above it. -/
theorem setField_eq (B off len v : Nat) :
    setField B off len v = 2 ^ off * (2 ^ len * (B / 2 ^ off / 2 ^ len) + v % 2 ^ len) + B % 2 ^ off := by
  have hfield : 2 ^ len * (B / 2 ^ off / 2 ^ len) + B / 2 ^ off % 2 ^ len = B / 2 ^ off := Nat.div_add_mod ..
  have hB : 2 ^ off * (B / 2 ^ off) + B % 2 ^ off = B := Nat.div_add_mod ..
  rw [← hfield, Nat.mul_add] at hB
  rw [setField, Nat.mul_add, Nat.mul_comm _ (2 ^ off), Nat.mul_comm _ (2 ^ off)]
  omega

/-- `SetField` replaces the field's bits and no other (R134). -/
theorem setField_testBit (B off len v k : Nat) :
    (setField B off len v).testBit k =
      if off ≤ k ∧ k < off + len then v.testBit (k - off) else B.testBit k := by
  rw [setField_eq, Nat.testBit_two_pow_mul_add _ (Nat.mod_lt _ (Nat.two_pow_pos off)),
    Nat.testBit_two_pow_mul_add _ (Nat.mod_lt _ (Nat.two_pow_pos len))]
  by_cases hlow : k < off
  · rw [if_pos hlow, if_neg (by omega), Nat.testBit_mod_two_pow]
    simp [hlow]
  · rw [if_neg hlow]
    by_cases hin : k - off < len
    · rw [if_pos hin, if_pos (by omega), Nat.testBit_mod_two_pow]
      simp [hin]
    · rw [if_neg hin, if_neg (by omega), Nat.testBit_div_two_pow, Nat.testBit_div_two_pow]
      congr 1
      omega

/-- A word and an integer with the same bits are the same number. -/
theorem toNat_eq_of_testBit {v : Word} {n : Nat} (h : ∀ j, v.getLsbD j = n.testBit j) : v.toNat = n :=
  Nat.eq_of_testBit_eq fun j => h j

/-- Settles O25: the value of `BF.GET` has the bits of `GetField`, and the buffer after `BF.SET` those of `SetField`. -/
theorem fieldsAreSlicesOfTheBuffer : Obligations.FieldsAreSlicesOfTheBuffer := by
  unfold Obligations.FieldsAreSlicesOfTheBuffer
  intro s h1 h64 hin
  refine ⟨fun tw hfits => ?get, ?set⟩
  case get =>
    obtain ⟨v, hexec, hbits⟩ := getReadsTheField s tw h1 hfits hin
    refine ⟨_, hexec, toNat_eq_of_testBit fun j => ?_⟩
    rw [hbits, getField_testBit, bufferValue_testBit]
    by_cases hj : j < s.arg2.toNat
    · simp [hj, show s.arg1.toNat + j < 8 * s.buflen.toNat by omega]
    · simp [hj]
  case set =>
    obtain ⟨t, hexec, -, hbits, -⟩ := setWritesTheField s h1 h64 hin
    refine ⟨t, hexec, Nat.eq_of_testBit_eq fun k => ?_⟩
    rw [bufferValue_testBit, hbits, setField_testBit, bufferValue_testBit]
    by_cases hk : s.arg1.toNat ≤ k ∧ k < s.arg1.toNat + s.arg2.toNat
    · rw [if_pos hk, if_pos hk]
      simp [show k < 8 * s.buflen.toNat by omega, BitVec.getLsbD]
    · rw [if_neg hk, if_neg hk]

/-! ## BF.SET and BF.GET with the same operands -/

/-- Settles O26: `BF.SET` keeps the operands and puts the value's bits where `BF.GET` reads them. -/
theorem setThenGetRoundTrips : Obligations.SetThenGetRoundTrips := by
  unfold Obligations.SetThenGetRoundTrips
  intro s tw h1 hfits hin
  obtain ⟨t, hset, hframe, hwritten, -⟩ := setWritesTheField s h1 (hfits.trans (resultWidth_bits_le tw)) hin
  have harg1 : t.arg1 = s.arg1 := by rw [hframe]
  have harg2 : t.arg2 = s.arg2 := by rw [hframe]
  have hbuflen : t.buflen = s.buflen := by rw [hframe]
  obtain ⟨v, hget, hread⟩ := getReadsTheField t tw (harg2 ▸ h1) (harg2 ▸ hfits) (by rwa [harg1, harg2, hbuflen])
  refine ⟨t, _, hset, hget, toNat_eq_of_testBit fun j => ?_⟩
  rw [hread, harg1, harg2, hwritten, Nat.testBit_mod_two_pow]
  by_cases hj : j < s.arg2.toNat
  · rw [if_pos (by omega), Nat.add_sub_cancel_left, BitVec.getLsbD]
  · simp [hj]

/-! ## Source bits above the field -/

/-- The bits of a word below `len` are those of its value modulo `2^len`. -/
theorem getLsbD_ofNat_mod_two_pow (v : Word) {len j : Nat} (hj : j < len) :
    (BitVec.ofNat 64 (v.toNat % 2 ^ len)).getLsbD j = v.getLsbD j := by
  rw [BitVec.getLsbD_ofNat, Nat.testBit_mod_two_pow]
  by_cases h64 : j < 64
  · simp [hj, h64, BitVec.getLsbD]
  · rw [BitVec.getLsbD_of_ge v j (by omega)]
    simp [h64]

/-- Settles O29: both sources have the same bits below the field's length, and only those reach the buffer. -/
theorem sourceBitsAboveTheFieldAreIgnored : Obligations.SourceBitsAboveTheFieldAreIgnored := by
  unfold Obligations.SourceBitsAboveTheFieldAreIgnored
  intro s h1 h64 hin
  obtain ⟨t, ht, -, htbits, -⟩ := setWritesTheField s h1 h64 hin
  obtain ⟨u, hu, -, hubits, -⟩ :=
    setWritesTheField { s with arg0 := BitVec.ofNat 64 (s.arg0.toNat % 2 ^ s.arg2.toNat) } h1 h64 hin
  refine ⟨t, u, ht, hu, fun a => Memory.read_eq_of_bit_eq fun i _ => ?_⟩
  rw [htbits, hubits]
  by_cases hk : s.arg1.toNat ≤ 8 * a + i ∧ 8 * a + i < s.arg1.toNat + s.arg2.toNat
  · rw [if_pos hk, if_pos hk]
    exact (getLsbD_ofNat_mod_two_pow s.arg0 (by omega)).symm
  · rw [if_neg hk, if_neg hk]

end Sys2Proof.Machine
end
